-- ==== Sys2Proof/Word.lean ====
section
/-! DEFINITION. The plain word types of the alfalfa CORE (spec 00_scope.md R6, R7; 20_memory.md R41). -/

namespace Sys2Proof

/-- A host data word, a command word or a coefficient pattern: 16 bits (R7 `HDATA_W`, `CMD_W`, `COEF_W`). -/
abbrev Word := BitVec 16

/-- A sample: 8 bits, read as unsigned (R6 `PIX_W`). -/
abbrev Byte := BitVec 8

/-- A host word address: 11 bits (R7 `HADDR_W`). -/
abbrev HAddr := BitVec 11

/-- A prediction-mode code: 4 opaque bits (R70). `MODE_W` is an open parameter; 4 is the spec's default (R7, D7; DESIGN
CHOICE, assumption 23). -/
abbrev Mode := BitVec 4

/-- The 16 coefficients of one block, each a 16-bit pattern, by linear index (R12, R16). -/
abbrev Coefs := Vector Word 16

end Sys2Proof
end

