-- ==== Sys2Proof/Config.lean ====
section
/-! DEFINITION. What is fixed for one machine: the parameters of R7, and the values the spec leaves open, as
constants without a body. -/

namespace Sys2Proof

/-- `IM_W`, the width of one intermediate entry: the spec's default 20 (R7, D10, U4; assumption 5). -/
abbrev Config.imW : Nat := 20

/-- `ID_VALUE`, what the read-only `ID` register reads (R7, R35). -/
def Config.idValue : Word := 0xA1FA#16

/-- `PredC(cmode, ctx)`: the external predictor's answer for both chroma planes, `(U', V')`, each row first
(`U'[y][x]` at index `8*y + x`, the order of R99's stream). Uninterpreted (R97, R98; assumption 6). -/
opaque Config.predC : Mode → Nat → Vector Byte 64 × Vector Byte 64

/-- `PredY(ymode, ctx)`: the predictor's answer for the whole luma plane, `Y'[y][x]` at index `16*y + x`.
Uninterpreted (R97, R98; assumption 6). -/
opaque Config.predY : Mode → Nat → Vector Byte 256

/-- `PredB(bmode, col, row, PX.Y, ctx)`: the predictor's answer for one luma sub-block, `S[i][k]` at index
`4*i + k`. Uninterpreted (R97, R98; assumption 6). -/
opaque Config.predB : Mode → BitVec 2 → BitVec 2 → Vector Byte 256 → Nat → Vector Byte 16

/-- The word the host bus returns for a read of data while the core is busy: a free value, a fresh one for each
such read (R47 (b), U2; assumption 7). -/
opaque Config.busyRead : Nat → Word

end Sys2Proof
end

