-- ==== Sys2Proof/Syntax.lean ====
section
/-! DEFINITION. The command set (30_encoding.md R59, R63): one constructor per row of spec/opcode_table.json. -/

namespace Sys2Proof

/-- A plane of the pixel raster (R27, R69). -/
inductive Plane where
  | y
  | u
  | v
deriving DecidableEq, Repr

/-- The plane code of the `PLANE` field (R69). -/
def Plane.code : Plane → BitVec 2
  | .y => 0
  | .u => 1
  | .v => 2

/-- A command (R59, R63). `COL` and `ROW` are the 2-bit fields of R60, column first as R73 writes them. -/
inductive Instr where
  /-- `RUNMB`: run the orchestrator for the loaded macroblock (R105). -/
  | runmb
  /-- `PREDC`: chroma prediction of both chroma planes (R101). -/
  | predc
  /-- `PREDY`: whole-macroblock luma prediction (R102). -/
  | predy
  /-- `PREDB col, row`: luma prediction of one sub-block (R103). -/
  | predb (col row : BitVec 2)
  /-- `IDCT.Y col, row`: inverse DCT of a luma block of `CB` (R85, R95). -/
  | idctY (col row : BitVec 2)
  /-- `IDCT.U col, row`: inverse DCT of a U block of `CB` (R85, R95). -/
  | idctU (col row : BitVec 2)
  /-- `IDCT.V col, row`: inverse DCT of a V block of `CB` (R85, R95). -/
  | idctV (col row : BitVec 2)
  /-- `IDCT.W col, row`: inverse DCT of a working-copy block into luma (R85, R95). -/
  | idctW (col row : BitVec 2)
  /-- `COPYY`: take the working copy of the 16 luma blocks (R75). -/
  | copyy
  /-- `WHT`: inverse Walsh–Hadamard transform of the Y2 block into the working copy's DC slots (R76). -/
  | wht
deriving DecidableEq, Repr

end Sys2Proof
end

