-- ==== Sys2Proof/WellFormed.lean ====
section
/-! DEFINITION. Which command terms have a command word: a chroma block's column and row are 0 or 1 (R63, R66 (e)). -/

namespace Sys2Proof

/-- A position of a 2 × 2 chroma grid (R13, R63). -/
def inChromaGrid (col row : BitVec 2) : Bool :=
  decide (col.toNat < 2) && decide (row.toNat < 2)

/-- The command term has a legal word (R63, R66). Every luma position is legal; a chroma position lies in its grid. -/
def Instr.wellFormed : Instr → Bool
  | .runmb => true
  | .predc => true
  | .predy => true
  | .predb _ _ => true
  | .idctY _ _ => true
  | .idctU col row => inChromaGrid col row
  | .idctV col row => inChromaGrid col row
  | .idctW _ _ => true
  | .copyy => true
  | .wht => true

end Sys2Proof
end

