-- ==== Sys2Proof/Decode.lean ====
section
/-! DEFINITION. The command decoder, total on all 65536 words and rejecting by name (30_encoding.md R60 to R67), then
the encoder written from the same tables, and the rows of spec/opcode_table.json. -/

namespace Sys2Proof

/-- Why a word is no command (R65, R66). -/
inductive DecodeError where
  /-- `OPC` is 0x0 or 0x8..0xF (R65). -/
  | illegalOpcode
  /-- A bit of `Z`, bits 11:7, is 1 (R66 (a)). -/
  | reservedBits
  /-- A command without operands has a bit of 6:0 set (R66 (b)). -/
  | operandBits
  /-- `PREDB` with a bit of 6:4 set (R66 (c)). -/
  | predbBits
  /-- `IDCT` with `PLANE` = 3 (R66 (d)). -/
  | illegalPlane
  /-- `IDCT` on a chroma plane with bit 1 or bit 3 set (R66 (e)). -/
  | chromaPosition
  /-- `IDCT` with `SRC` = 1 and a plane other than Y (R66 (f)). -/
  | sourcePlane
deriving DecidableEq, Repr

/-- `OPC`, bits 15:12 (R60). -/
def opcField (w : Word) : BitVec 4 := w.extractLsb' 12 4

/-- `Z`, bits 11:7 (R60). -/
def zField (w : Word) : BitVec 5 := w.extractLsb' 7 5

/-- `SRC`, bit 6 (R60). -/
def srcField (w : Word) : BitVec 1 := w.extractLsb' 6 1

/-- `PLANE`, bits 5:4 (R60). -/
def planeField (w : Word) : BitVec 2 := w.extractLsb' 4 2

/-- `ROW`, bits 3:2 (R60). -/
def rowField (w : Word) : BitVec 2 := w.extractLsb' 2 2

/-- `COL`, bits 1:0 (R60). -/
def colField (w : Word) : BitVec 2 := w.extractLsb' 0 2

/-- A command without operands: bits 6:0 must be 0 (R66 (b)). -/
def decodePlain (w : Word) (i : Instr) : Except DecodeError Instr :=
  if w.extractLsb' 0 7 = 0#7 then .ok i else .error .operandBits

/-- `PREDB`: bits 6:4 must be 0 (R62, R66 (c)). -/
def decodePredb (w : Word) : Except DecodeError Instr :=
  if w.extractLsb' 4 3 = 0#3 then .ok (.predb (colField w) (rowField w)) else .error .predbBits

/-- A chroma form of `IDCT`: bits 3 and 1 must be 0 (R63, R66 (e)). -/
def decodeChroma (w : Word) (i : Instr) : Except DecodeError Instr :=
  if w.getLsbD 1 || w.getLsbD 3 then .error .chromaPosition else .ok i

/-- The four forms of `IDCT`, by `SRC` and `PLANE` (R63, R66 (d) to (f)). -/
def decodeIdct (w : Word) : Except DecodeError Instr :=
  if planeField w = 3#2 then .error .illegalPlane
  else if srcField w = 1#1 then
    if planeField w = 0#2 then .ok (.idctW (colField w) (rowField w)) else .error .sourcePlane
  else if planeField w = 0#2 then .ok (.idctY (colField w) (rowField w))
  else if planeField w = 1#2 then decodeChroma w (.idctU (colField w) (rowField w))
  else decodeChroma w (.idctV (colField w) (rowField w))

/-- The command a word is, or the reason it is none (R61, R65, R66). -/
def decode (w : Word) : Except DecodeError Instr :=
  let opc := opcField w
  if opc = 0#4 ∨ 8#4 ≤ opc then .error .illegalOpcode
  else if zField w ≠ 0#5 then .error .reservedBits
  else if opc = 1#4 then decodePlain w .runmb
  else if opc = 2#4 then decodePlain w .predc
  else if opc = 3#4 then decodePlain w .predy
  else if opc = 4#4 then decodePredb w
  else if opc = 5#4 then decodeIdct w
  else if opc = 6#4 then decodePlain w .copyy
  else decodePlain w .wht

/-- `(row << 2) | col`, the position bits 3:0 of `PREDB` and `IDCT` words (R62, R63). -/
def positionBits (col row : BitVec 2) : Word :=
  (row.setWidth 16 <<< 2) ||| col.setWidth 16

/-- The word of a command (R61 to R63). -/
def encode : Instr → Word
  | .runmb => 0x1000#16
  | .predc => 0x2000#16
  | .predy => 0x3000#16
  | .predb col row => 0x4000#16 ||| positionBits col row
  | .idctY col row => 0x5000#16 ||| positionBits col row
  | .idctU col row => 0x5010#16 ||| positionBits col row
  | .idctV col row => 0x5020#16 ||| positionBits col row
  | .idctW col row => 0x5040#16 ||| positionBits col row
  | .copyy => 0x6000#16
  | .wht => 0x7000#16

/-- The `mask` of the command's row in spec/opcode_table.json. -/
def tableMask : Instr → Word
  | .runmb => 0xFFFF#16
  | .predc => 0xFFFF#16
  | .predy => 0xFFFF#16
  | .predb _ _ => 0xFFF0#16
  | .idctY _ _ => 0xFFF0#16
  | .idctU _ _ => 0xFFFA#16
  | .idctV _ _ => 0xFFFA#16
  | .idctW _ _ => 0xFFF0#16
  | .copyy => 0xFFFF#16
  | .wht => 0xFFFF#16

/-- The `match` of the command's row in spec/opcode_table.json. -/
def tableMatch : Instr → Word
  | .runmb => 0x1000#16
  | .predc => 0x2000#16
  | .predy => 0x3000#16
  | .predb _ _ => 0x4000#16
  | .idctY _ _ => 0x5000#16
  | .idctU _ _ => 0x5010#16
  | .idctV _ _ => 0x5020#16
  | .idctW _ _ => 0x5040#16
  | .copyy => 0x6000#16
  | .wht => 0x7000#16

/-- The (`mask`, `match`) pairs of the ten rows of spec/opcode_table.json, in its order. -/
def opcodeRows : List (Word × Word) :=
  [(0xFFFF#16, 0x1000#16), (0xFFFF#16, 0x2000#16), (0xFFFF#16, 0x3000#16), (0xFFF0#16, 0x4000#16),
   (0xFFF0#16, 0x5000#16), (0xFFFA#16, 0x5010#16), (0xFFFA#16, 0x5020#16), (0xFFF0#16, 0x5040#16),
   (0xFFFF#16, 0x6000#16), (0xFFFF#16, 0x7000#16)]

/-- A word matches some row of the opcode table. -/
def matchesRow (w : Word) : Bool := opcodeRows.any fun r => (w &&& r.1) == r.2

/-- The complete set of legal words as R66 lists it. -/
def legalWords : List Word :=
  [0x1000#16, 0x2000#16, 0x3000#16]
    ++ (List.range 16).map (fun k => BitVec.ofNat 16 (0x4000 + k))
    ++ (List.range 16).map (fun k => BitVec.ofNat 16 (0x5000 + k))
    ++ [0x5010#16, 0x5011#16, 0x5014#16, 0x5015#16, 0x5020#16, 0x5021#16, 0x5024#16, 0x5025#16]
    ++ (List.range 16).map (fun k => BitVec.ofNat 16 (0x5040 + k))
    ++ [0x6000#16, 0x7000#16]

/-- The decoder on a table row's word: a command is one 16-bit word, written whole (R46, R60), so bit 0 is the
word's bit 0. A word longer than 16 bits is no command. -/
def decodeTableWord (nbits w : Nat) : Option Instr :=
  if nbits ≤ 16 ∧ w < 2 ^ 16 then (decode (BitVec.ofNat 16 w)).toOption else none

end Sys2Proof
end

