-- ==== Sys2Proof/Machine/State.lean ====
section
/-! DEFINITION. Everything the spec gives the machine (10_state.md R15 to R40), as plain data, the outside world's
inputs as a list the step reads, and the machine right after reset. -/

namespace Sys2Proof.Machine

/-- The phase of the sequencer (R109). Codes 11 to 14 are never taken by `SEQ` and have no constructor. -/
inductive Phase where
  | idle
  | cPred
  | cIdct
  | yPred
  | yCopy
  | yWht
  | yIdctW
  | yIdctD
  | bPred
  | bIdct
  | direct
  | faulted
deriving DecidableEq, Repr

/-- `SEQ`, the program counter of this hardware: phase and index (R30). -/
structure Sequencer where
  ph : Phase
  n  : BitVec 4
deriving DecidableEq, Repr

/-- The cause held in `STATUS.FCODE` (R126); codes 7 to 15 are never written and have no constructor. -/
inductive FaultCode where
  | none
  | illegalCmd
  | idctDcNotFinal
  | whtUncoded
  | whtNoY2
  | whtDstNotPending
  | hostWriteBusy
deriving DecidableEq, Repr

/-- The fields of `STATUS` (R31). -/
structure Status where
  busy  : Bool
  done  : Bool
  fault : Bool
  dcovf : Bool
  fcode : FaultCode
deriving DecidableEq, Repr

/-- The fields of `HDR` (R22); its reserved bits hold nothing. -/
structure Header where
  pb    : Bool
  hnz   : Bool
  ymode : Mode
  cmode : Mode
deriving DecidableEq, Repr

/-- The variant of a coefficient block (R19). -/
inductive Tag where
  | yWithoutY2
  | yWithY2
  | y2
  | uv
deriving DecidableEq, Repr

/-- The tag a working-copy block stores, one bit: pending or final (R25). -/
inductive CopyTag where
  | yWithoutY2
  | yWithY2
deriving DecidableEq, Repr

/-- A block of the coefficient store (R16, R17). -/
structure CoefBlock where
  coef  : Coefs
  coded : Bool
deriving DecidableEq, Repr

/-- A block of the working copy (R24, R25). -/
structure WorkBlock where
  coef  : Coefs
  coded : Bool
  tag   : CopyTag
deriving DecidableEq, Repr

/-- The memory of the pixel raster `PX`: one cell for a sample, its key the sample's host word address
(0x600..0x77F, R42, R44). Kept in one canonical form, `Memory.wf` in Machine/Ops.lean. -/
abbrev Memory := List Host.Cell

/-- What the data stores hold after a reset, which the spec leaves unspecified (R40, U1). -/
structure PowerUp where
  cbCoef : Vector Coefs 25
  wcCoef : Vector Coefs 16
  im     : Vector (BitVec Config.imW) 16
  cur    : Word
  /-- The 384 samples in host address order: `PX.Y`, `PX.U`, `PX.V`. -/
  px     : Vector Byte 384
deriving DecidableEq, Repr

/-- One thing that happens next, as the outside world has it (INDEX.md: host access, core step, `RESET`; R147).
The list of these in State says how host accesses fall between core steps (U5). -/
inductive Event where
  /-- The core takes one step if it is busy (R107). -/
  | coreStep
  /-- `HostRead(a)` (R47). -/
  | hostRead (a : HAddr)
  /-- `HostWrite(a, v)` (R48). -/
  | hostWrite (a : HAddr) (v : Word)
  /-- `RESET`, with what the unspecified stores come up holding (R148, R149). -/
  | reset (stores : PowerUp)
  /-- The predictor's context outside the CORE becomes another one, which it does between runs only (R97, R98 (c),
  R157). -/
  | ctxChange (ctx : Nat)
deriving DecidableEq, Repr

/-- The kind of a request on the predictor port, `p_kind` (R100). -/
inductive PredKind where
  | chroma
  | lumaMb
  | lumaSb
deriving DecidableEq, Repr

/-- A request the core drove on the predictor port: `p_kind`, `p_mode`, `p_col`, `p_row` (R99). -/
structure PredRequest where
  kind : PredKind
  mode : Mode
  col  : BitVec 2
  row  : BitVec 2
deriving DecidableEq, Repr

/-- The machine. The first ten fields are the spec's state elements (10_state.md, its table; `ID` is a constant and
`CMD` holds nothing, R32, R35). The last five are the model's own: what stands outside the CORE (assumption 8). -/
structure State where
  /-- `CB`: the 25 coefficient blocks with their coded flags (R15 to R17). -/
  cb        : Vector CoefBlock 25
  /-- `HDR` (R22). -/
  hdr       : Header
  /-- `BMODE[0..15]` (R23). -/
  bmode     : Vector Mode 16
  /-- `WC`: the working copy of the 16 luma blocks (R24, R25). -/
  wc        : Vector WorkBlock 16
  /-- `IM`: the intermediate array, scratch (R26). -/
  im        : Vector (BitVec Config.imW) 16
  /-- `PX`: the pixel raster (R27). -/
  px        : Memory
  /-- `SEQ` (R30). -/
  seq       : Sequencer
  /-- `STATUS` (R31). -/
  status    : Status
  /-- `FINFO` (R33). -/
  finfo     : Word
  /-- `CUR`, the hidden latch of a directly issued micro-op's word (R34). -/
  cur       : Word
  /-- The predictor's context `ctx`, a name for it, constant during a run (R38, R97, R98 (c)). The model's own. -/
  ctx       : Nat
  /-- What happens next, oldest first. The model's own. -/
  events    : List Event
  /-- The word the last `HostRead` returned. The model's own. -/
  rdata     : Word
  /-- How many unspecified words host reads have returned: the counter of the free value. The model's own. -/
  freeReads : Nat
  /-- The requests made on the predictor port, newest first. The model's own record of an output. -/
  preqs     : List PredRequest
deriving DecidableEq, Repr

/-- Why the model stops. The hardware's own faults (R126) are NOT here: a faulting action takes the fault state,
which is a next state. -/
inductive Fault where
  /-- Raised by `coreStep` when `BUSY` = 1 and `SEQ` and `CUR` name no step that the spec has a rule for (an index
  outside R109's range, a `CUR` that is no micro-op's word). No state that meets `State.Inv` raises it. Safe: the
  model stops. -/
  | noSequencerRule
deriving DecidableEq, Repr

/-- Why the model gives a command term no meaning. -/
inductive Refusal where
  /-- No meaning is written for the command. Safe. -/
  | notModelled (mnemonic : String)
  /-- Raised by `execIdctU` and `execIdctV` for a term with a column or row above 1. No word decodes to such a
  term (R66 (e)), so no step raises it. Safe. -/
  | noSuchBlock
deriving DecidableEq, Repr

/-- A block's 16 coefficients at reset, the model's own value (assumption 1). -/
def Coefs.zero : Coefs := Vector.replicate 16 0#16

/-- The machine right after reset (R40, R148): control state as R40 gives it; the data stores and `CUR`, which R40
leaves unspecified, at zero (assumptions 1 to 4); no input pending. -/
def State.reset : State where
  cb        := Vector.replicate 25 { coef := Coefs.zero, coded := false }
  hdr       := { pb := false, hnz := false, ymode := 0#4, cmode := 0#4 }
  bmode     := Vector.replicate 16 0#4
  wc        := Vector.replicate 16 { coef := Coefs.zero, coded := false, tag := .yWithY2 }
  im        := Vector.replicate 16 0#Config.imW
  px        := []
  seq       := { ph := .idle, n := 0#4 }
  status    := { busy := false, done := false, fault := false, dcovf := false, fcode := .none }
  finfo     := 0#16
  cur       := 0#16
  ctx       := 0
  events    := []
  rdata     := 0#16
  freeReads := 0
  preqs     := []

end Sys2Proof.Machine
end

