-- ==== Sys2Proof/Machine/Ops.lean ====
section
/-! DEFINITION. The named operations every meaning is written over: the arithmetic primitives of 00_scope.md, the
raster memory, the sequencer's moves, taking a fault, and reset, the one way out of the fault state. -/

namespace Sys2Proof.Machine

/-- The result type of a meaning and of a step. -/
abbrev Result := Host.Outcome State Fault Refusal

/-! ### Arithmetic over the integers (R8 to R11) -/

/-- `v >> k`: the floor of `v / 2^k` (R9). -/
def asr (v : Int) (k : Nat) : Int := v / ((2 ^ k : Nat) : Int)

/-- `wrap_N(v)`: the low `N` bits of `v` read as two's complement (R10). -/
def wrapTo (n : Nat) (v : Int) : Int := (BitVec.ofInt n v).toInt

/-- `clamp255(v)` (R11). -/
def clamp255 (v : Int) : Int := if v < 0 then 0 else if 255 < v then 255 else v

/-- The sample that holds a clamped value (R90). -/
def clampByte (v : Int) : Byte := BitVec.ofInt 8 (clamp255 v)

/-- The coefficient at a linear index, as a signed integer (R14, R16). -/
def coefAt (blk : Coefs) (i : Fin 16) : Int := blk[i].toInt

/-- `store_IM(v)`: the intermediate entry that holds `v`, its low `IM_W` bits (R78, R88). -/
def storeIM (v : Int) : BitVec Config.imW := BitVec.ofInt Config.imW v

/-! ### The raster memory (R27, R44) -/

/-- What an unlisted sample reads as. The spec leaves it unspecified (R40); zero is the model's choice (assumption 4). -/
def Memory.unlisted : Byte := 0#8

/-- The first sample address, `PX.Y[0][0]` (R44). -/
def Memory.firstAddr : Nat := 0x600

/-- The first address past the samples (R42, R44). -/
def Memory.endAddr : Nat := 0x780

/-- The canonical form from an address on: addresses rise strictly and stay below the end of the raster, and no cell
holds what an unlisted sample reads as. -/
def Memory.wfFrom : Nat → Memory → Bool
  | _, [] => true
  | lo, (a, v) :: rest =>
    decide (lo ≤ a) && decide (a < Memory.endAddr) && decide (v ≠ Memory.unlisted) && Memory.wfFrom (a + 1) rest

/-- The canonical form of the raster memory. -/
def Memory.wf (m : Memory) : Bool := Memory.wfFrom Memory.firstAddr m

/-- The sample at an address. -/
def Memory.read : Memory → Nat → Byte
  | [], _ => Memory.unlisted
  | (k, v) :: rest, a => if k = a then v else Memory.read rest a

/-- Store a sample at an address, keeping the canonical form. -/
def Memory.write : Memory → Nat → Byte → Memory
  | [], a, v => if v = Memory.unlisted then [] else [(a, v)]
  | (k, w) :: rest, a, v =>
    if a < k then (if v = Memory.unlisted then (k, w) :: rest else (a, v) :: (k, w) :: rest)
    else if a = k then (if v = Memory.unlisted then rest else (a, v) :: rest)
    else (k, w) :: Memory.write rest a v

/-- Store a list of samples, first to last. -/
def Memory.writeMany (m : Memory) (cells : List Host.Cell) : Memory :=
  cells.foldl (fun m c => m.write c.1 c.2) m

/-- The memory that lists given bytes at consecutive addresses. -/
def Memory.ofBytes : Nat → List Byte → Memory
  | _, [] => []
  | a, b :: rest => if b = Memory.unlisted then Memory.ofBytes (a + 1) rest else (a, b) :: Memory.ofBytes (a + 1) rest

/-- The address of a plane's first sample (R44). -/
def planeBase : Plane → Nat
  | .y => 0x600
  | .u => 0x700
  | .v => 0x740

/-- The samples in one row of a plane (R7, R27). -/
def planeWidth : Plane → Nat
  | .y => 16
  | .u => 8
  | .v => 8

/-- The host address of sample `PX.P[y][x]` (R44). -/
def sampleAddr (p : Plane) (x y : Nat) : Nat := planeBase p + planeWidth p * y + x

/-- `MemRead(P, x, y)` (R14, R27). -/
def State.memRead (s : State) (p : Plane) (x y : Nat) : Byte := s.px.read (sampleAddr p x y)

/-- The address of the sample at row `j div 4`, column `j mod 4` of sub-block `(col, row)` of a plane (R28). -/
def blockAddr (p : Plane) (col row : Nat) (j : Fin 16) : Nat :=
  sampleAddr p (4 * col + j.val % 4) (4 * row + j.val / 4)

/-- The 16 samples of a sub-block with a value for each, in row order (R28). -/
def blockCells (p : Plane) (col row : Nat) (f : Fin 16 → Byte) : List Host.Cell :=
  (List.finRange 16).map fun j => (blockAddr p col row j, f j)

/-- All samples of a plane with a value for each, in row order (R27). -/
def planeCells {n : Nat} (p : Plane) (v : Vector Byte n) : List Host.Cell :=
  (List.finRange n).map fun j => (planeBase p + j.val, v[j])

/-- Overwrite samples of the raster (R29). -/
def State.writeSamples (s : State) (cells : List Host.Cell) : State := { s with px := s.px.writeMany cells }

/-- Record a request on the predictor port (R99). -/
def State.request (s : State) (r : PredRequest) : State := { s with preqs := r :: s.preqs }

/-- `PX.Y` as the predictor can read it through `p_rdaddr`, the address `16*y + x` (R99). -/
def State.portRead (s : State) (addr : BitVec 8) : Byte := s.px.read (planeBase .y + addr.toNat)

/-- The whole content of `PX.Y`, `PXY[16*y + x]` (R97). -/
def State.lumaPlane (s : State) : Vector Byte 256 := Vector.ofFn fun j => s.px.read (planeBase .y + j.val)

/-- The predictor's context becomes another one. While `BUSY` = 1 it stays as it is: `ctx` does not change between
acceptance and `END` (R38, R98 (c), R157; assumption 13). -/
def State.changeCtx (s : State) (ctx : Nat) : State := { s with ctx := if s.status.busy then s.ctx else ctx }

/-! ### The sequencer and the end of a command (R30, R121) -/

/-- `SEQ <- (ph, n)` (R14). -/
def State.goto (s : State) (q : Sequencer) : State := { s with seq := q }

/-- `END`: the last part of a command's last step (R121). -/
def State.endCommand (s : State) : State :=
  { s with
    status := { s.status with busy := false, done := true }
    seq := { ph := .idle, n := 0#4 } }

/-! ### Taking a fault, and the way back (R133, R137, R148) -/

/-- `raise Fault(code, info)`: fault entry, in place of everything else the action would have done (R133). -/
def State.raiseFault (s : State) (code : FaultCode) (info : Word) : State :=
  { s with
    status := { s.status with fault := true, fcode := code, busy := false }
    finfo := info
    seq := { ph := .faulted, n := s.seq.n } }

/-- `RESET`: control state as R40 gives it, the data stores whatever `p` says (R148, R149). What stands outside the
CORE (context, inputs, what the bus and the port showed) is not touched. -/
def State.resetCore (s : State) (p : PowerUp) : State :=
  { s with
    cb := Vector.ofFn fun b => { coef := p.cbCoef[b], coded := false }
    hdr := { pb := false, hnz := false, ymode := 0#4, cmode := 0#4 }
    bmode := Vector.replicate 16 0#4
    wc := Vector.ofFn fun k => { coef := p.wcCoef[k], coded := false, tag := .yWithY2 }
    im := p.im
    px := Memory.ofBytes Memory.firstAddr p.px.toList
    seq := { ph := .idle, n := 0#4 }
    status := { busy := false, done := false, fault := false, dcovf := false, fcode := .none }
    finfo := 0#16
    cur := p.cur }

/-- The power-up contents the model's own reset state has (assumptions 1 to 4). -/
def PowerUp.zero : PowerUp where
  cbCoef := Vector.replicate 25 Coefs.zero
  wcCoef := Vector.replicate 16 Coefs.zero
  im := Vector.replicate 16 0#Config.imW
  cur := 0#16
  px := Vector.replicate 384 0#8

end Sys2Proof.Machine
end

