-- ==== Sys2Proof/Machine/Operands.lean ====
section
/-! DEFINITION. Operand forms: how a command's fields select a block, its tag and its target (10_state.md R18, R21;
30_encoding.md R64; 41_idct.md R95), and the positions the sequencer's index names (43_orchestrator.md R109). -/

namespace Sys2Proof.Machine

/-- The stored tag as one of the four variants (R25). -/
def CopyTag.toTag : CopyTag → Tag
  | .yWithoutY2 => .yWithoutY2
  | .yWithY2 => .yWithY2

/-- The variant code of R71. -/
def Tag.code : Tag → BitVec 2
  | .yWithoutY2 => 0
  | .yWithY2 => 1
  | .y2 => 2
  | .uv => 3

/-- The Y2 block's coded flag, `CB[24].coded` (R15, R17). -/
def State.y2Coded (s : State) : Bool := s.cb[24].coded

/-- The tag all 16 luma blocks of `CB` share: pending exactly when `HDR.PB = 0` and the Y2 block is coded (R21). -/
def State.lumaTag (s : State) : CopyTag :=
  if s.hdr.pb = false ∧ s.y2Coded = true then .yWithY2 else .yWithoutY2

/-- `TagCB(b)` (R21). -/
def State.tagCB (s : State) (b : Fin 25) : Tag :=
  if b.val = 24 then .y2 else if 16 ≤ b.val then .uv else s.lumaTag.toTag

/-- The luma block at `(col, row)`: `4*row + col` (R18, R64). -/
def lumaBlock (col row : BitVec 2) : Fin 16 := ⟨4 * row.toNat + col.toNat, by omega⟩

/-- The U block at `(col, row)` of its 2 × 2 grid: `16 + 2*row + col` (R18, R64). -/
def uBlock (col row : BitVec 2) : Option (Fin 25) :=
  if h : col.toNat < 2 ∧ row.toNat < 2 then some ⟨16 + 2 * row.toNat + col.toNat, by omega⟩ else none

/-- The V block at `(col, row)` of its 2 × 2 grid: `20 + 2*row + col` (R18, R64). -/
def vBlock (col row : BitVec 2) : Option (Fin 25) :=
  if h : col.toNat < 2 ∧ row.toNat < 2 then some ⟨20 + 2 * row.toNat + col.toNat, by omega⟩ else none

/-- A luma block as a block of the coefficient store (R15). -/
def storeBlock (k : Fin 16) : Fin 25 := ⟨k.val, by omega⟩

/-- The coefficients and tag of a block of `CB`, `SRC = 0` (R95). -/
def State.operandCB (s : State) (b : Fin 25) : Coefs × Tag := (s.cb[b].coef, s.tagCB b)

/-- The coefficients and tag of a block of `WC`, `SRC = 1` (R95). -/
def State.operandWC (s : State) (k : Fin 16) : Coefs × Tag := (s.wc[k].coef, s.wc[k].tag.toTag)

/-- The column of luma block `n`: `n mod 4` (R109). -/
def lumaCol (n : BitVec 4) : BitVec 2 := BitVec.ofNat 2 (n.toNat % 4)

/-- The row of luma block `n`: `n div 4` (R109). -/
def lumaRow (n : BitVec 4) : BitVec 2 := BitVec.ofNat 2 (n.toNat / 4)

/-- The column of chroma block `16 + n`: `n mod 2` (R109, R111). -/
def chromaCol (n : BitVec 4) : BitVec 2 := BitVec.ofNat 2 (n.toNat % 2)

/-- The row of chroma block `16 + n`: `(n mod 4) div 2` (R109, R111). -/
def chromaRow (n : BitVec 4) : BitVec 2 := BitVec.ofNat 2 (n.toNat % 4 / 2)

end Sys2Proof.Machine
end

