-- ==== Sys2Proof/Machine/Flags.lean ====
section
/-! DEFINITION. Every flag computation (10_state.md R31, R36, R37; 40_dc_patching.md R76, R80; 43_orchestrator.md R106)
and the words the control registers read as. -/

namespace Sys2Proof.Machine

/-- The core is idle: `BUSY = 0` and `FAULT = 0` (R31). -/
def State.isIdle (s : State) : Bool := !s.status.busy && !s.status.fault

/-- The core takes steps: `BUSY = 1`, and it is not frozen in the fault state (R107, R136). -/
def State.isRunning (s : State) : Bool := s.status.busy && !s.status.fault

/-- What acceptance does before it looks at the word: `DONE <- 0`, `DCOVF <- 0` (R106). -/
def State.clearOnAccept (s : State) : State := { s with status := { s.status with done := false, dcovf := false } }

/-- `BUSY <- 1` and the sequencer's first position (R106). -/
def State.start (s : State) (q : Sequencer) : State :=
  { s with status := { s.status with busy := true }, seq := q }

/-- Some working-copy tag is not `Y_WITH_Y2` (the third precondition of R76). -/
def State.copyNotPending (s : State) : Bool := decide (∃ k : Fin 16, s.wc[k].tag ≠ .yWithY2)

/-- Some DC value does not fit 16 bits (R80). -/
def dcOverflows (o : Vector Int 16) : Bool := decide (∃ n : Fin 16, wrapTo 16 o[n] ≠ o[n])

/-- `DCOVF` after a `WHT`: set by an overflow, never cleared (R80). -/
def Status.noteDc (st : Status) (o : Vector Int 16) : Status := { st with dcovf := st.dcovf || dcOverflows o }

/-- The three output pins `busy`, `done`, `fault` (R139). -/
def State.pins (s : State) : Bool × Bool × Bool := (s.status.busy, s.status.done, s.status.fault)

/-- The word whose bit `k`, for `k` below `n`, is `f k`, zero above. -/
def packBits : Nat → (Nat → Bool) → Word
  | 0, _ => 0#16
  | n + 1, f => packBits n f ||| (if f n then 1#16 <<< n else 0#16)

/-- The fault cause code of `FCODE` (R126). -/
def FaultCode.code : FaultCode → BitVec 4
  | .none => 0
  | .illegalCmd => 1
  | .idctDcNotFinal => 2
  | .whtUncoded => 3
  | .whtNoY2 => 4
  | .whtDstNotPending => 5
  | .hostWriteBusy => 6

/-- The phase code of `SEQ.ph` (R109). -/
def Phase.code : Phase → BitVec 4
  | .idle => 0
  | .cPred => 1
  | .cIdct => 2
  | .yPred => 3
  | .yCopy => 4
  | .yWht => 5
  | .yIdctW => 6
  | .yIdctD => 7
  | .bPred => 8
  | .bIdct => 9
  | .direct => 10
  | .faulted => 15

/-- The request kind code on `p_kind` (R100). -/
def PredKind.code : PredKind → BitVec 2
  | .chroma => 0
  | .lumaMb => 1
  | .lumaSb => 2

/-- `STATUS` as the host reads it (R31). -/
def Status.word (st : Status) : Word :=
  (st.fcode.code.setWidth 16 <<< 4) |||
    packBits 4 (fun k => if k = 0 then st.busy else if k = 1 then st.done else if k = 2 then st.fault else st.dcovf)

/-- `HDR` as the host reads it (R22). -/
def Header.word (h : Header) : Word :=
  packBits 2 (fun k => if k = 0 then h.pb else h.hnz) |||
    ((h.ymode.setWidth 16 <<< 4) ||| (h.cmode.setWidth 16 <<< 8))

/-- What a write of `HDR` stores: reserved bits are ignored (R22, R49). -/
def Header.ofWord (v : Word) : Header where
  pb := v.getLsbD 0
  hnz := v.getLsbD 1
  ymode := v.extractLsb' 4 4
  cmode := v.extractLsb' 8 4

/-- `SEQ` as the host reads it (R30). -/
def Sequencer.word (q : Sequencer) : Word := (q.ph.code.setWidth 16 <<< 4) ||| q.n.setWidth 16

/-- `BMODEr` as the host reads it: `BMODE[4*r + c]` in bits `4*c+3 : 4*c` (R23). -/
def State.bmodeWord (s : State) (r : Fin 4) : Word :=
  let field (c : Fin 4) : Word := s.bmode[4 * r.val + c.val].setWidth 16 <<< (4 * c.val)
  field 0 ||| field 1 ||| field 2 ||| field 3

/-- `CODED_LO`: bit `b` is `CB[b].coded` (R36). -/
def State.codedLo (s : State) : Word := packBits 16 fun b => if h : b < 25 then s.cb[b].coded else false

/-- `CODED_HI`: bit `j` is `CB[16 + j].coded` for `j` in 0..8 (R36). -/
def State.codedHi (s : State) : Word := packBits 9 fun j => if h : 16 + j < 25 then s.cb[16 + j].coded else false

/-- `WPEND`: bit `k` is 1 when `WC[k].tag = Y_WITH_Y2` (R36). -/
def State.wpend (s : State) : Word := packBits 16 fun k => if h : k < 16 then s.wc[k].tag == .yWithY2 else false

/-- `WCODED`: bit `k` is `WC[k].coded` (R36). -/
def State.wcoded (s : State) : Word := packBits 16 fun k => if h : k < 16 then s.wc[k].coded else false

end Sys2Proof.Machine
end

