-- ==== Sys2Proof/Machine/DcPatching.lean ====
section
/-! DEFINITION. `COPYY` and the inverse Walsh–Hadamard transform `WHT` (40_dc_patching.md R75 to R84). -/

namespace Sys2Proof.Machine

/-- `COPYY`: copy coefficients, coded flag and tag of the 16 luma blocks into `WC` (R75). -/
def execCopyy (s : State) : Result :=
  .next { s with
    wc := Vector.ofFn fun k =>
      { coef := s.cb[storeBlock k].coef, coded := s.cb[storeBlock k].coded, tag := s.lumaTag } }

/-- The WHT butterfly on four values, output `k` of `a+b, c'+d, a-b, d-c'` with `a = m0+m3`, `b = m1+m2`,
`c' = m1-m2`, `d = m0-m3` (R77, R79). -/
def wht4 (m0 m1 m2 m3 : Int) (k : Nat) : Int :=
  let a := m0 + m3
  let b := m1 + m2
  let cc := m1 - m2
  let d := m0 - m3
  if k = 0 then a + b else if k = 1 then cc + d else if k = 2 then a - b else d - cc

/-- The column of a 16-entry index, `n mod 4` (R12). -/
def colOf (n : Fin 16) : Fin 4 := ⟨n.val % 4, by omega⟩

/-- The row of a 16-entry index, `n div 4` (R12). -/
def rowOf (n : Fin 16) : Fin 4 := ⟨n.val / 4, by omega⟩

/-- The linear index of a row and a column, `4*row + col` (R12). -/
def indexAt (row col : Fin 4) : Fin 16 := ⟨4 * row.val + col.val, by omega⟩

/-- WHT pass 1 before the intermediate store: column `i` in, offset `i + 4*k` out (R77). -/
def whtColumn (c : Coefs) (i k : Fin 4) : Int :=
  wht4 (coefAt c (indexAt 0 i)) (coefAt c (indexAt 1 i)) (coefAt c (indexAt 2 i)) (coefAt c (indexAt 3 i)) k.val

/-- WHT pass 1: the intermediate array (R77, R78). -/
def whtPass1 (c : Coefs) : Vector (BitVec Config.imW) 16 :=
  Vector.ofFn fun n => storeIM (whtColumn c (colOf n) (rowOf n))

/-- WHT pass 2: the 16 DC values, rounded by `(x + 3) >> 3` (R79). -/
def whtPass2 (im : Vector (BitVec Config.imW) 16) : Vector Int 16 :=
  Vector.ofFn fun n =>
    let m (p : Fin 4) : Int := im[indexAt (rowOf n) p].toInt
    asr (wht4 (m 0) (m 1) (m 2) (m 3) (colOf n).val + 3) 3

/-- WHT write-back of one block: the DC slot and the tag, nothing else (R80). -/
def WorkBlock.patch (w : WorkBlock) (dc : Int) : WorkBlock :=
  { w with coef := w.coef.set 0 (BitVec.ofInt 16 dc), tag := .yWithoutY2 }

/-- What `WHT` does once its three preconditions hold: R77 to R80 in order. -/
def State.whtApply (s : State) : State :=
  let im := whtPass1 s.cb[24].coef
  let o := whtPass2 im
  { s with
    im := im
    wc := Vector.ofFn fun n => s.wc[n].patch o[n]
    status := s.status.noteDc o }

/-- `WHT`: three preconditions in order, the first that fails raising its fault, then the transform (R76). -/
def execWht (s : State) : Result :=
  .next <|
    if s.hdr.pb then s.raiseFault .whtNoY2 (encode .wht)
    else if s.y2Coded = false then s.raiseFault .whtUncoded (encode .wht)
    else if s.copyNotPending then s.raiseFault .whtDstNotPending (encode .wht)
    else s.whtApply

end Sys2Proof.Machine
end

