-- ==== Sys2Proof/Machine/Idct.lean ====
section
/-! DEFINITION. The 4×4 inverse DCT with saturating accumulation, in its four forms (41_idct.md R85 to R96). -/

namespace Sys2Proof.Machine

/-- `mul_a(x) = ((x*20091) >> 16) + x` (R86). -/
def mulA (x : Int) : Int := asr (x * 20091) 16 + x

/-- `mul_b(x) = (x*35468) >> 16` (R86). -/
def mulB (x : Int) : Int := asr (x * 35468) 16

/-- The four-term combination of both passes on the entries of stride 4: output `k` of `t0+t3, t1+t2, t1-t2, t0-t3`
(R87, R89). -/
def idct4 (x0 x4 x8 x12 : Int) (k : Nat) : Int :=
  let t0 := x0 + x8
  let t1 := x0 - x8
  let t2 := mulB x4 - mulA x12
  let t3 := mulA x4 + mulB x12
  if k = 0 then t0 + t3 else if k = 1 then t1 + t2 else if k = 2 then t1 - t2 else t0 - t3

/-- IDCT pass 1 before the intermediate store: column `i` in, output `k` (R87). -/
def idctColumn (c : Coefs) (i k : Fin 4) : Int :=
  idct4 (coefAt c (indexAt 0 i)) (coefAt c (indexAt 1 i)) (coefAt c (indexAt 2 i)) (coefAt c (indexAt 3 i)) k.val

/-- IDCT pass 1: output `k` of column `i` goes to entry `4*i + k` (R87, R88). -/
def idctPass1 (c : Coefs) : Vector (BitVec Config.imW) 16 :=
  Vector.ofFn fun n => storeIM (idctColumn c (rowOf n) (colOf n))

/-- IDCT pass 2: the residual of row `i`, column `k`, at index `4*i + k`, rounded by `(x + 4) >> 3` (R89). -/
def idctPass2 (im : Vector (BitVec Config.imW) 16) : Vector Int 16 :=
  Vector.ofFn fun n =>
    let m (q : Fin 4) : Int := im[indexAt q (rowOf n)].toInt
    asr (idct4 (m 0) (m 1) (m 2) (m 3) (colOf n).val + 4) 3

/-- The 16 residuals of a block (R96: a function of its coefficients). -/
def residual (c : Coefs) : Vector Int 16 := idctPass2 (idctPass1 c)

/-- The 16 samples of a sub-block with a residual added and clamped (R90). -/
def State.accumulated (s : State) (r : Vector Int 16) (p : Plane) (col row : Nat) : List Host.Cell :=
  blockCells p col row fun j => clampByte ((s.px.read (blockAddr p col row j)).toNat + r[j])

/-- An `IDCT` of selected coefficients and tag into sub-block `(col, row)` of a plane: the precondition of R91, then
R87 to R90. `word` is the command word a fault records. -/
def State.idctInto (s : State) (word : Word) (op : Coefs × Tag) (p : Plane) (col row : Nat) : State :=
  if op.2 ≠ .yWithoutY2 ∧ op.2 ≠ .uv then s.raiseFault .idctDcNotFinal word
  else
    { s with
      px := s.px.writeMany (s.accumulated (residual op.1) p col row)
      im := idctPass1 op.1 }

/-- `IDCT.Y col, row`: block `CB[4*row + col]` into luma (R85, R95). -/
def execIdctY (col row : BitVec 2) (s : State) : Result :=
  .next (s.idctInto (encode (.idctY col row)) (s.operandCB (storeBlock (lumaBlock col row))) .y col.toNat row.toNat)

/-- `IDCT.U col, row`: block `CB[16 + 2*row + col]` into the first chroma plane (R85, R95). -/
def execIdctU (col row : BitVec 2) (s : State) : Result :=
  match uBlock col row with
  | some b => .next (s.idctInto (encode (.idctU col row)) (s.operandCB b) .u col.toNat row.toNat)
  | none => .refused .noSuchBlock

/-- `IDCT.V col, row`: block `CB[20 + 2*row + col]` into the second chroma plane (R85, R95). -/
def execIdctV (col row : BitVec 2) (s : State) : Result :=
  match vBlock col row with
  | some b => .next (s.idctInto (encode (.idctV col row)) (s.operandCB b) .v col.toNat row.toNat)
  | none => .refused .noSuchBlock

/-- `IDCT.W col, row`: working-copy block `WC[4*row + col]` into luma (R85, R95). -/
def execIdctW (col row : BitVec 2) (s : State) : Result :=
  .next (s.idctInto (encode (.idctW col row)) (s.operandWC (lumaBlock col row)) .y col.toNat row.toNat)

end Sys2Proof.Machine
end

