-- ==== Sys2Proof/Machine/Orchestrator.lean ====
section
/-! DEFINITION. The meaning of `RUNMB` (43_orchestrator.md R105): it starts the sequencer, whose steps are in
Machine/Sequencer.lean. -/

namespace Sys2Proof.Machine

/-- `RUNMB`: `BUSY <- 1` and the sequencer at `(C_PRED, 0)`; the run then proceeds step by step (R105, R106). -/
def execRunmb (s : State) : Result := .next (s.start { ph := .cPred, n := 0#4 })

end Sys2Proof.Machine
end

