-- ==== Sys2Proof/Machine/Prediction.lean ====
section
/-! DEFINITION. The prediction micro-operations `PREDC`, `PREDY`, `PREDB` (42_prediction.md R97 to R104). -/

namespace Sys2Proof.Machine

/-- `PREDC`: overwrite all of `PX.U` and `PX.V` with the predictor's answer for `HDR.CMODE` (R101). -/
def execPredc (s : State) : Result :=
  let answer := Config.predC s.hdr.cmode s.ctx
  .next ((s.request { kind := .chroma, mode := s.hdr.cmode, col := 0#2, row := 0#2 }).writeSamples
    (planeCells .u answer.1 ++ planeCells .v answer.2))

/-- `PREDY`: overwrite all of `PX.Y` with the predictor's answer for `HDR.YMODE`; `HDR.PB` is not checked (R102). -/
def execPredy (s : State) : Result :=
  .next ((s.request { kind := .lumaMb, mode := s.hdr.ymode, col := 0#2, row := 0#2 }).writeSamples
    (planeCells .y (Config.predY s.hdr.ymode s.ctx)))

/-- `PREDB col, row`: overwrite luma sub-block `(col, row)` with the predictor's answer for `BMODE[4*row + col]`,
which may read `PX.Y` as it is before the command (R103). -/
def execPredb (col row : BitVec 2) (s : State) : Result :=
  let mode := s.bmode[lumaBlock col row]
  let answer := Config.predB mode col row s.lumaPlane s.ctx
  .next ((s.request { kind := .lumaSb, mode := mode, col := col, row := row }).writeSamples
    (blockCells .y col.toNat row.toNat fun j => answer[j]))

end Sys2Proof.Machine
end

