-- ==== Sys2Proof/Machine/Dispatch.lean ====
section
/-! DEFINITION. One arm for each command of spec/opcode_table.json. -/

namespace Sys2Proof.Machine

def exec (i : Instr) (s : State) : Host.Outcome State Fault Refusal :=
  match i with
  | .runmb => Sys2Proof.Machine.execRunmb s
  | .predc => Sys2Proof.Machine.execPredc s
  | .predy => Sys2Proof.Machine.execPredy s
  | .predb col row => Sys2Proof.Machine.execPredb col row s
  | .idctY col row => Sys2Proof.Machine.execIdctY col row s
  | .idctU col row => Sys2Proof.Machine.execIdctU col row s
  | .idctV col row => Sys2Proof.Machine.execIdctV col row s
  | .idctW col row => Sys2Proof.Machine.execIdctW col row s
  | .copyy => Sys2Proof.Machine.execCopyy s
  | .wht => Sys2Proof.Machine.execWht s

end Sys2Proof.Machine
end

