-- ==== Sys2Proof/Machine/HostBus.lean ====
section
/-! DEFINITION. The host bus: the address map, `HostRead`, `HostWrite` and the acceptance of a command (20_memory.md R41
to R49; 43_orchestrator.md R106). -/

namespace Sys2Proof.Machine

/-- What a host address names (R42). -/
inductive HostReg where
  | cmd
  | status
  | hdr
  | finfo
  | seq
  | id
  | bmode (r : Fin 4)
  | codedLo
  | codedHi
  | wpend
  | wcoded
  | cbCoef (b : Fin 25) (i : Fin 16)
  | wcCoef (k i : Fin 16)
  /-- A sample, named by its address (R44). -/
  | sample (addr : Nat)
  /-- A reserved address (R49). -/
  | reserved
deriving DecidableEq, Repr

/-- The address map (R42 to R45, R49). -/
def hostReg (a : HAddr) : HostReg :=
  let n := a.toNat
  if n = 0x000 then .cmd
  else if n = 0x001 then .status
  else if n = 0x002 then .hdr
  else if n = 0x003 then .finfo
  else if n = 0x004 then .seq
  else if n = 0x005 then .id
  else if h : 0x008 ≤ n ∧ n < 0x00C then .bmode ⟨n - 0x008, by omega⟩
  else if n = 0x010 then .codedLo
  else if n = 0x011 then .codedHi
  else if n = 0x012 then .wpend
  else if n = 0x013 then .wcoded
  else if h : 0x200 ≤ n ∧ n < 0x390 then .cbCoef ⟨(n - 0x200) / 16, by omega⟩ ⟨(n - 0x200) % 16, by omega⟩
  else if h : 0x400 ≤ n ∧ n < 0x500 then .wcCoef ⟨(n - 0x400) / 16, by omega⟩ ⟨(n - 0x400) % 16, by omega⟩
  else if 0x600 ≤ n ∧ n < 0x780 then .sample n
  else .reserved

/-- The registers that read their true value at any time (R47 (b)). -/
def HostReg.alwaysTrue : HostReg → Bool
  | .status => true
  | .finfo => true
  | .seq => true
  | .id => true
  | .cmd => false
  | .hdr => false
  | .bmode _ => false
  | .codedLo => false
  | .codedHi => false
  | .wpend => false
  | .wcoded => false
  | .cbCoef _ _ => false
  | .wcCoef _ _ => false
  | .sample _ => false
  | .reserved => false

/-- The content the map gives for a register (R47 (a), R49). -/
def State.content (s : State) : HostReg → Word
  | .cmd => 0#16
  | .status => s.status.word
  | .hdr => s.hdr.word
  | .finfo => s.finfo
  | .seq => s.seq.word
  | .id => Config.idValue
  | .bmode r => s.bmodeWord r
  | .codedLo => s.codedLo
  | .codedHi => s.codedHi
  | .wpend => s.wpend
  | .wcoded => s.wcoded
  | .cbCoef b i => s.cb[b].coef[i]
  | .wcCoef k i => s.wc[k].coef[i]
  | .sample a => (s.px.read a).setWidth 16
  | .reserved => 0#16

/-- The read returns an unspecified word: data while the core is busy (R47 (b), U2). -/
def State.readIsFree (s : State) (a : HAddr) : Bool := s.status.busy && !(hostReg a).alwaysTrue

/-- `HostRead(a)`: the word returned (R47). -/
def State.hostReadValue (s : State) (a : HAddr) : Word :=
  if s.readIsFree a then Config.busyRead s.freeReads else s.content (hostReg a)

/-- `HostRead(a)` as an event: nothing of the CORE changes (R47); the word shows on the bus, and an unspecified word is
a fresh one. -/
def State.hostRead (s : State) (a : HAddr) : State :=
  { s with
    rdata := s.hostReadValue a
    freeReads := if s.readIsFree a then s.freeReads + 1 else s.freeReads }

/-- A data write while idle: exactly the element addressed; reserved bits, read-only and reserved addresses ignored
(R43 to R45, R48, R49). -/
def State.writeReg (s : State) (v : Word) : HostReg → State
  | .cmd => s
  | .status => s
  | .hdr => { s with hdr := Header.ofWord v }
  | .finfo => s
  | .seq => s
  | .id => s
  | .bmode r => { s with bmode := Vector.ofFn fun j => if j.val / 4 = r.val then v.extractLsb' (4 * (j.val % 4)) 4 else s.bmode[j] }
  | .codedLo => { s with cb := Vector.ofFn fun b => if b.val < 16 then { s.cb[b] with coded := v.getLsbD b.val } else s.cb[b] }
  | .codedHi => { s with cb := Vector.ofFn fun b => if b.val < 16 then s.cb[b] else { s.cb[b] with coded := v.getLsbD (b.val - 16) } }
  | .wpend => s
  | .wcoded => s
  | .cbCoef b i => { s with cb := s.cb.set b { s.cb[b] with coef := s.cb[b].coef.set i v } }
  | .wcCoef _ _ => s
  | .sample a => { s with px := s.px.write a (v.setWidth 8) }
  | .reserved => s

/-- A micro-op's word is latched and waits for its step (R106). -/
def State.startDirect (s : State) (w : Word) : State :=
  { s.start { ph := .direct, n := 0#4 } with cur := w }

/-- Acceptance of a command written to `CMD` while idle (R106). -/
def State.accept (s : State) (w : Word) : Result :=
  match decode w with
  | .error _ => .next (s.clearOnAccept.raiseFault .illegalCmd w)
  | .ok .runmb => exec .runmb s.clearOnAccept
  | .ok _ => .next (s.clearOnAccept.startDirect w)

/-- `HostWrite(a, v)` (R48). -/
def State.hostWrite (s : State) (a : HAddr) (v : Word) : Result :=
  if s.status.fault then .next s
  else if s.status.busy then .next (s.raiseFault .hostWriteBusy (a.setWidth 16))
  else if hostReg a = .cmd then s.accept v
  else .next (s.writeReg v (hostReg a))

end Sys2Proof.Machine
end

