-- ==== Sys2Proof/Machine/Sequencer.lean ====
section
/-! DEFINITION. The sequencer: what a core step dispatches and where `SEQ` goes then (43_orchestrator.md R107 to R121). -/

namespace Sys2Proof.Machine

/-- What one core step does: one micro-op executed whole, or a move that dispatches nothing (R107). -/
inductive SeqAction where
  | run (i : Instr)
  | skip
deriving DecidableEq, Repr

/-- The chroma micro-op of index `n`: `IDCT.U` for 0..3, `IDCT.V` for 4..7 (R111). -/
def chromaInstr (n : BitVec 4) : Instr :=
  if n.toNat < 4 then .idctU (chromaCol n) (chromaRow n) else .idctV (chromaCol n) (chromaRow n)

/-- The step at `(C_IDCT, n)`: the chroma block's `IDCT` if the block is coded (R111). -/
def State.chromaAction (s : State) (n : BitVec 4) : Option SeqAction :=
  if h : n.toNat < 8 then
    some (if s.cb[16 + n.toNat].coded then .run (chromaInstr n) else .skip)
  else none

/-- The step at `(DIRECT, 0)`: the micro-op whose word `CUR` holds (R120). -/
def State.directAction (s : State) : Option SeqAction :=
  match decode s.cur with
  | .ok .runmb => none
  | .ok i => some (.run i)
  | .error _ => none

/-- A phase whose index is always 0 (R109). -/
def onlyAtZero (n : BitVec 4) (a : Option SeqAction) : Option SeqAction := if n = 0#4 then a else none

/-- The action of the step at `SEQ = (ph, n)` (R109); `none` where the spec gives no rule. -/
def State.seqAction (s : State) : Option SeqAction :=
  match s.seq.ph with
  | .idle => none
  | .cPred => onlyAtZero s.seq.n (some (.run .predc))
  | .cIdct => s.chromaAction s.seq.n
  | .yPred => onlyAtZero s.seq.n (some (.run .predy))
  | .yCopy => onlyAtZero s.seq.n (some (.run .copyy))
  | .yWht => onlyAtZero s.seq.n (some (.run .wht))
  | .yIdctW => some (.run (.idctW (lumaCol s.seq.n) (lumaRow s.seq.n)))
  | .yIdctD => some (.run (.idctY (lumaCol s.seq.n) (lumaRow s.seq.n)))
  | .bPred => some (.run (.predb (lumaCol s.seq.n) (lumaRow s.seq.n)))
  | .bIdct => some (.run (.idctY (lumaCol s.seq.n) (lumaRow s.seq.n)))
  | .direct => onlyAtZero s.seq.n s.directAction
  | .faulted => none

/-- `LumaEntry` (R112). -/
def State.lumaEntry (s : State) : Sequencer :=
  if s.hdr.pb then { ph := .bPred, n := 0#4 } else { ph := .yPred, n := 0#4 }

/-- The next index of a phase up to `last`, or what follows the phase. -/
def countTo (last : Nat) (ph : Phase) (n : BitVec 4) (after : Option Sequencer) : Option Sequencer :=
  if n.toNat < last then some { ph := ph, n := n + 1#4 } else after

/-- Where `SEQ` goes after the step (R110 to R120); `none` means `END` (R121). -/
def State.seqTarget (s : State) : Option Sequencer :=
  match s.seq.ph with
  | .idle => none
  | .cPred => some (if s.hdr.hnz then { ph := .cIdct, n := 0#4 } else s.lumaEntry)
  | .cIdct => countTo 7 .cIdct s.seq.n (some s.lumaEntry)
  | .yPred =>
    if s.hdr.hnz = false then none
    else if s.y2Coded then some { ph := .yCopy, n := 0#4 } else some { ph := .yIdctD, n := 0#4 }
  | .yCopy => some { ph := .yWht, n := 0#4 }
  | .yWht => some { ph := .yIdctW, n := 0#4 }
  | .yIdctW => countTo 15 .yIdctW s.seq.n none
  | .yIdctD => countTo 15 .yIdctD s.seq.n none
  | .bPred => if s.hdr.hnz then some { ph := .bIdct, n := s.seq.n } else countTo 15 .bPred s.seq.n none
  | .bIdct => countTo 15 .bPred s.seq.n none
  | .direct => none
  | .faulted => none

/-- `SEQ <- target`, or `END` (R107, R121). -/
def State.advance (s : State) : Option Sequencer → State
  | some q => s.goto q
  | none => s.endCommand

/-- After a micro-op: the sequencer advances, unless the micro-op raised a fault, which the step adds nothing to (R107,
R120). -/
def afterMicroOp (r : Result) (target : Option Sequencer) : Result :=
  match r with
  | .next t => .next (if t.status.fault then t else t.advance target)
  | .fault f => .fault f
  | .refused q => .refused q

/-- One step of the core: none while it is not running (R107, R136), else the action of `SEQ` and its move. -/
def coreStep (s : State) : Result :=
  if s.isRunning then
    match s.seqAction with
    | some (.run i) => afterMicroOp (exec i s) s.seqTarget
    | some .skip => .next (s.advance s.seqTarget)
    | none => .fault .noSequencerRule
  else .next s

end Sys2Proof.Machine
end

