-- ==== Sys2Proof/Machine/Step.lean ====
section
/-! DEFINITION. One step of the machine: the next event of the outside world, or, when none is pending, a step of the
core (INDEX.md; 43_orchestrator.md R107; 70_reset_and_hazards.md R147). -/

namespace Sys2Proof.Machine

/-- One step. With no event pending the core steps while it is busy and rests while it is not (R107, R150). -/
def step (s : State) : Host.Outcome State Fault Refusal :=
  match s.events with
  | [] => coreStep s
  | .coreStep :: rest => coreStep { s with events := rest }
  | .hostRead a :: rest => .next (({ s with events := rest } : State).hostRead a)
  | .hostWrite a v :: rest => ({ s with events := rest } : State).hostWrite a v
  | .reset p :: rest => .next (({ s with events := rest } : State).resetCore p)
  | .ctxChange c :: rest => .next (({ s with events := rest } : State).changeCtx c)

/-- The machine about to run a command word as its very next step. A micro-op: the state its acceptance leaves
(R106), its step being next. `RUNMB`, and a word that is no command: an idle core, the host's write of the word to `CMD`
being next, since acceptance is the step that runs it (R105, R127). -/
def State.withFetchWord (s : State) (nbits w : Nat) : State :=
  let cmd : Word := BitVec.ofNat 16 (w % 2 ^ nbits)
  let idle : State :=
    { s with
      status := { s.status with busy := false, fault := false, fcode := .none }
      seq := { ph := .idle, n := 0#4 }
      finfo := 0#16 }
  match decode cmd with
  | .ok .runmb => { idle with events := .hostWrite 0x000#11 cmd :: s.events }
  | .ok _ => { idle.clearOnAccept.startDirect cmd with events := .coreStep :: s.events }
  | .error _ => { idle with events := .hostWrite 0x000#11 cmd :: s.events }

end Sys2Proof.Machine
end

