-- ==== Sys2Proof/Safety.lean ====
section
/-! DEFINITION. What the statements about the machine are said in: the states a run can meet, a run of core steps, the
orchestrator's program as the spec writes it (43_orchestrator.md R108), and the two transforms over the integers. -/

namespace Sys2Proof.Machine

/-! ### The legal states -/

/-- What R31, R33 and R126 say of `STATUS` and `FINFO`: at most one of `BUSY`, `FAULT`; `DONE` with neither; a cause
exactly in the fault state; `FINFO` zero outside it. -/
def State.statusLegal (s : State) : Bool :=
  !(s.status.busy && s.status.fault) && !(s.status.done && (s.status.busy || s.status.fault))
    && ((s.status.fcode == .none) == !s.status.fault) && (s.status.fault || s.finfo == 0#16)

/-- The run is on the path through the working copy (R113). -/
def State.y2Path (s : State) : Bool := !s.hdr.pb && s.hdr.hnz && s.y2Coded

/-- All 16 working-copy blocks are DC-final (R80, R116). -/
def State.copyFinal (s : State) : Bool := decide (∀ k : Fin 16, s.wc[k].tag = .yWithoutY2)

/-- A word is that of a micro-op: a legal word other than `RUNMB`'s (R106, R120). -/
def isMicroOpWord (w : Word) : Bool :=
  match decode w with
  | .ok .runmb => false
  | .ok _ => true
  | .error _ => false

/-- `SEQ` is in R109's range, and what R110 to R120 say of reaching its phase holds. -/
def State.phaseLegal (s : State) : Bool :=
  match s.seq.ph with
  | .idle => !s.status.busy && !s.status.fault && s.seq.n == 0#4
  | .cPred => s.status.busy && s.seq.n == 0#4
  | .cIdct => s.status.busy && decide (s.seq.n.toNat < 8) && s.hdr.hnz
  | .yPred => s.status.busy && s.seq.n == 0#4 && !s.hdr.pb
  | .yCopy => s.status.busy && s.seq.n == 0#4 && s.y2Path
  | .yWht => s.status.busy && s.seq.n == 0#4 && s.y2Path && !s.copyNotPending
  | .yIdctW => s.status.busy && s.y2Path && s.copyFinal
  | .yIdctD => s.status.busy && !s.hdr.pb && s.hdr.hnz && !s.y2Coded
  | .bPred => s.status.busy && s.hdr.pb
  | .bIdct => s.status.busy && s.hdr.pb && s.hdr.hnz
  | .direct => s.status.busy && s.seq.n == 0#4 && isMicroOpWord s.cur
  | .faulted => s.status.fault

/-- The invariant of the machine: canonical raster memory, legal status, legal sequencer. -/
def State.inv (s : State) : Bool := s.px.wf && s.statusLegal && s.phaseLegal

/-! ### Runs of core steps -/

/-- `k` core steps with no host access between them. -/
def coreSteps : Nat → State → Result
  | 0, s => .next s
  | k + 1, s =>
    match coreStep s with
    | .next t => coreSteps k t
    | .fault f => .fault f
    | .refused r => .refused r

/-- The number of steps of a `RUNMB` run (R123 (b)). -/
def State.runSteps (s : State) : Nat :=
  match s.hdr.pb, s.hdr.hnz, s.y2Coded with
  | false, false, _ => 2
  | true, false, _ => 17
  | false, true, true => 28
  | false, true, false => 26
  | true, true, _ => 41

/-- The coded chroma blocks' micro-ops in order (R108, R111). -/
def State.chromaProgram (s : State) : List Instr :=
  ((List.finRange 8).filter fun n => s.cb[16 + n.val].coded).map fun n => chromaInstr (BitVec.ofNat 4 n.val)

/-- The 16 luma positions in raster order, a micro-op list for each (R108, R118). -/
def rasterProgram (f : BitVec 2 → BitVec 2 → List Instr) : List Instr :=
  (List.range 16).flatMap fun n => f (BitVec.ofNat 2 (n % 4)) (BitVec.ofNat 2 (n / 4))

/-- The micro-ops of a `RUNMB` run, as the program of R108 writes them. -/
def State.runProgram (s : State) : List Instr :=
  [.predc] ++ (if s.hdr.hnz then s.chromaProgram else []) ++
    (if s.hdr.pb then
      rasterProgram fun col row => .predb col row :: (if s.hdr.hnz then [.idctY col row] else [])
    else
      .predy :: (if s.hdr.hnz then
        (if s.y2Coded then .copyy :: .wht :: rasterProgram fun col row => [.idctW col row]
         else rasterProgram fun col row => [.idctY col row])
       else []))

/-- Micro-ops executed one after another, stopping at what is no next state. -/
def execAll : List Instr → State → Result
  | [], s => .next s
  | i :: rest, s =>
    match exec i s with
    | .next t => execAll rest t
    | .fault f => .fault f
    | .refused r => .refused r

/-- The number of coded chroma blocks, `nc` (R123 (b)). -/
def State.codedChroma (s : State) : Nat := ((List.finRange 8).filter fun n => s.cb[16 + n.val].coded).length

/-! ### The transforms over the integers -/

/-- The sign pattern `h` of R82, by row and column. -/
def whtSign (r q : Fin 4) : Int :=
  match r.val, q.val with
  | 1, 2 => -1
  | 1, 3 => -1
  | 2, 1 => -1
  | 2, 2 => -1
  | 3, 1 => -1
  | 3, 3 => -1
  | _, _ => 1

/-- Output `n` of the WHT before rounding: the signed sum of the 16 inputs (R82). -/
def whtSum (blk : Coefs) (n : Fin 16) : Int :=
  ((List.finRange 16).map fun j => whtSign (rowOf n) (rowOf j) * whtSign (colOf n) (colOf j) * coefAt blk j).sum

/-- Pass 1 of the IDCT over the integers, `IM[4*i + k]` (R87). -/
def idctIm (blk : Coefs) (i k : Fin 4) : Int :=
  let c0 := coefAt blk (indexAt 0 i)
  let c4 := coefAt blk (indexAt 1 i)
  let c8 := coefAt blk (indexAt 2 i)
  let c12 := coefAt blk (indexAt 3 i)
  match k.val with
  | 0 => (c0 + c8) + (mulA c4 + mulB c12)
  | 1 => (c0 - c8) + (mulB c4 - mulA c12)
  | 2 => (c0 - c8) - (mulB c4 - mulA c12)
  | _ => (c0 + c8) - (mulA c4 + mulB c12)

/-- The residual `r[i][k]` of R89, over the integers. -/
def idctResidual (blk : Coefs) (i k : Fin 4) : Int :=
  let m0 := idctIm blk 0 i
  let m4 := idctIm blk 1 i
  let m8 := idctIm blk 2 i
  let m12 := idctIm blk 3 i
  match k.val with
  | 0 => ((m0 + m8) + (mulA m4 + mulB m12) + 4) / 8
  | 1 => ((m0 - m8) + (mulB m4 - mulA m12) + 4) / 8
  | 2 => ((m0 - m8) - (mulB m4 - mulA m12) + 4) / 8
  | _ => ((m0 + m8) - (mulA m4 + mulB m12) + 4) / 8

/-- The 16 coefficients that are zero but for the DC. -/
def dcOnly (v : Word) : Coefs := Coefs.zero.set 0 v

/-! ### Encodings and regions -/

/-- The conditions under which R65 and R66 (a) to (f) call a word illegal. -/
def bitsIllegal (w : Word) : Bool :=
  let opc := (opcField w).toNat
  let plane := (planeField w).toNat
  opc == 0 || decide (8 ≤ opc)
    || zField w != 0#5
    || ((opc == 1 || opc == 2 || opc == 3 || opc == 6 || opc == 7) && w.extractLsb' 0 7 != 0#7)
    || (opc == 4 && w.extractLsb' 4 3 != 0#3)
    || (opc == 5 && plane == 3)
    || (opc == 5 && (plane == 1 || plane == 2) && (w.getLsbD 1 || w.getLsbD 3))
    || (opc == 5 && srcField w == 1#1 && plane != 0)

/-- An address lies in sub-block `(col, row)` of a plane (R28). -/
def inBlock (p : Plane) (col row : Nat) (a : Nat) : Prop := ∃ j : Fin 16, a = blockAddr p col row j

/-- A micro-op of the chroma planes (R57). -/
def isChromaOp : Instr → Bool
  | .predc => true
  | .idctU _ _ => true
  | .idctV _ _ => true
  | .runmb => false
  | .predy => false
  | .predb _ _ => false
  | .idctY _ _ => false
  | .idctW _ _ => false
  | .copyy => false
  | .wht => false

/-- A micro-op of the luma plane (R57). -/
def isLumaOp : Instr → Bool
  | .predc => false
  | .idctU _ _ => false
  | .idctV _ _ => false
  | .runmb => false
  | .predy => true
  | .predb _ _ => true
  | .idctY _ _ => true
  | .idctW _ _ => true
  | .copyy => true
  | .wht => true

end Sys2Proof.Machine
end

