-- ==== Sys2Proof/Certificates/Slice0/Obligations.lean ====
section
/-! DEFINITION. The statements about the machine, one for each entry of OBLIGATIONS.json. -/

open Sys2Proof Sys2Proof.Machine

/-! ### Encoding -/

/-- R65, R66: the words called illegal are exactly those the decoder rejects, the legal ones are exactly R66's list of
61, and an illegal word written to `CMD` while idle raises `F_ILLEGAL_CMD` with the word in `FINFO`. -/
def Obligations.IllegalWordsAreRejected : Prop :=
  (∀ w : Word, bitsIllegal w = true ↔ ∃ e, decode w = .error e) ∧
  (∀ w : Word, (∃ i, decode w = .ok i) ↔ w ∈ legalWords) ∧
  legalWords.Nodup ∧ legalWords.length = 61 ∧ (0x0000#16 ∉ legalWords) ∧ (0xFFFF#16 ∉ legalWords) ∧
  (∀ (s : State) (w : Word), s.isIdle = true → w ∉ legalWords →
    s.hostWrite 0x000#11 w = .next { s with
      status := { busy := false, done := false, fault := true, dcovf := false, fcode := .illegalCmd }
      finfo := w
      seq := { ph := .faulted, n := s.seq.n } })

/-- R60 to R63: decoding the word of any well-formed command gives the command back, every operand at every value. -/
def Obligations.DecodeOfEncode : Prop :=
  ∀ i : Instr, i.wellFormed = true → decode (encode i) = .ok i

/-- R60 to R66: a word that decodes is the word of the command it decodes to, and that command is well formed. -/
def Obligations.EncodeOfDecode : Prop :=
  ∀ (w : Word) (i : Instr), decode w = .ok i → i.wellFormed = true ∧ encode i = w

/-- R60: the `match`/`mask` pairs of the opcode table accept exactly the words that decode, each the decoded command's
own row, and no word matches two rows. -/
def Obligations.OpcodeTableIsTheDecoder : Prop :=
  (∀ w : Word, matchesRow w = true ↔ ∃ i, decode w = .ok i) ∧
  (∀ (w : Word) (i : Instr), decode w = .ok i → w &&& tableMask i = tableMatch i) ∧
  opcodeRows.Pairwise (fun r q => ∀ w : Word, ¬(w &&& r.1 = r.2 ∧ w &&& q.1 = q.2))

/-- V37: the words the spec writes out decode to the commands it names. -/
def Obligations.SampleWordsDecode : Prop :=
  decode 0x1000#16 = .ok .runmb ∧ decode 0x2000#16 = .ok .predc ∧ decode 0x3000#16 = .ok .predy ∧
  decode 0x400B#16 = .ok (.predb 3#2 2#2) ∧ decode 0x5009#16 = .ok (.idctY 1#2 2#2) ∧
  decode 0x5011#16 = .ok (.idctU 1#2 0#2) ∧ decode 0x5024#16 = .ok (.idctV 0#2 1#2) ∧
  decode 0x504F#16 = .ok (.idctW 3#2 3#2) ∧ decode 0x6000#16 = .ok .copyy ∧ decode 0x7000#16 = .ok .wht

/-! ### Arithmetic -/

/-- R9, R10: `>>` is the floor of the quotient, and `wrap_N` is the one integer of the `N`-bit signed range congruent to
its argument. -/
def Obligations.ShiftAndWrap : Prop :=
  (∀ (v : Int) (k : Nat), asr v k * 2 ^ k ≤ v ∧ v < (asr v k + 1) * 2 ^ k) ∧
  (∀ (n : Nat) (v : Int), 1 ≤ n →
    -2 ^ (n - 1) ≤ wrapTo n v ∧ wrapTo n v ≤ 2 ^ (n - 1) - 1 ∧ (v - wrapTo n v) % 2 ^ n = 0 ∧
    ∀ w : Int, -2 ^ (n - 1) ≤ w → w ≤ 2 ^ (n - 1) - 1 → (v - w) % 2 ^ n = 0 → w = wrapTo n v)

/-- R11: `clamp255`, and the sample that holds its value. -/
def Obligations.ClampSaturates : Prop :=
  ∀ v : Int, (v < 0 → clamp255 v = 0) ∧ (255 < v → clamp255 v = 255) ∧ (0 ≤ v → v ≤ 255 → clamp255 v = v) ∧
    ((clampByte v).toNat : Int) = clamp255 v

/-- R86: the multiply helpers, their table of values, and that both are non-decreasing. -/
def Obligations.MultiplyHelpers : Prop :=
  (∀ x : Int, mulA x = x * 20091 / 65536 + x ∧ mulB x = x * 35468 / 65536) ∧
  (∀ x y : Int, x ≤ y → mulA x ≤ mulA y ∧ mulB x ≤ mulB y) ∧
  ([0, 1, -1, 2, 3, 4, -4, 100, -100, 1000, 32767, -32768].map mulA =
    [0, 1, -2, 2, 3, 5, -6, 130, -131, 1306, 42812, -42814]) ∧
  ([0, 1, -1, 2, 3, 4, -4, 100, -100, 1000, 32767, -32768].map mulB =
    [0, 0, -1, 1, 1, 2, -3, 54, -55, 541, 17733, -17734])

/-- R77 to R79, R82: the two WHT passes with their `IM_W`-bit store compute, for every 16-bit input, the signed sum of
the 16 inputs rounded by `(x + 3) >> 3`; pass-1 values lie in R78's range. -/
def Obligations.WhtIsSignedSum : Prop :=
  ∀ blk : Coefs,
    (∀ i k : Fin 4, -131072 ≤ whtColumn blk i k ∧ whtColumn blk i k ≤ 131070) ∧
    (∀ n : Fin 16, (whtPass2 (whtPass1 blk))[n] = (whtSum blk n + 3) / 8) ∧
    (∀ n : Fin 16, -65536 ≤ (whtSum blk n + 3) / 8 ∧ (whtSum blk n + 3) / 8 ≤ 65535)

/-- R87 to R89, R93: the two IDCT passes with their `IM_W`-bit store compute the formulas over the integers for every
16-bit input; pass-1 values and residuals lie in R93's ranges. -/
def Obligations.IdctIsExact : Prop :=
  ∀ blk : Coefs,
    (∀ i k : Fin 4, -126084 ≤ idctIm blk i k ∧ idctIm blk i k ≤ 126082) ∧
    (∀ i k : Fin 4, (residual blk)[indexAt i k] = idctResidual blk i k) ∧
    (∀ i k : Fin 4, -60643 ≤ idctResidual blk i k ∧ idctResidual blk i k ≤ 60643)

/-- R94 (a), (b): an all-zero block has residual 0 everywhere, a DC-only block the flat residual `(v + 4) >> 3`. -/
def Obligations.DcOnlyBlockIsFlat : Prop :=
  ∀ v : Word, (∀ n : Fin 16, (residual (dcOnly v))[n] = (v.toInt + 4) / 8) ∧
    (∀ n : Fin 16, (residual Coefs.zero)[n] = 0)

/-- R80: inputs of magnitude at most 16383 never set `DCOVF`, nor do 16 inputs whose magnitudes sum to at most
262133. -/
def Obligations.SmallInputsFitTheDcSlot : Prop :=
  ∀ blk : Coefs,
    ((∀ n : Fin 16, (coefAt blk n).natAbs ≤ 16383) → dcOverflows (whtPass2 (whtPass1 blk)) = false) ∧
    (((List.finRange 16).map fun n => (coefAt blk n).natAbs).sum ≤ 262133 →
      dcOverflows (whtPass2 (whtPass1 blk)) = false)

/-! ### The meanings: completion, result and frame -/

/-- R105, R106: `RUNMB` completes, starting the sequencer at `(C_PRED, 0)`; nothing else changes. -/
def Obligations.RunmbStartsTheSequencer : Prop :=
  ∀ s : State, exec .runmb s =
    .next { s with status := { s.status with busy := true }, seq := { ph := .cPred, n := 0#4 } }

/-- R101: `PREDC` completes from every state, overwrites all of `PX.U` and `PX.V` with the predictor's answer for
`HDR.CMODE`, and changes nothing else but the record of the request. -/
def Obligations.PredcResult : Prop :=
  encode .predc = 0x2000#16 ∧ ∀ s : State, ∃ t, exec .predc s = .next t ∧
    t = { s with px := t.px, preqs := { kind := .chroma, mode := s.hdr.cmode, col := 0#2, row := 0#2 } :: s.preqs } ∧
    (∀ a, (a < 0x700 ∨ 0x780 ≤ a) → t.px.read a = s.px.read a) ∧
    (s.px.wf = true → ∀ x y : Fin 8,
      t.memRead .u x.val y.val = (Config.predC s.hdr.cmode s.ctx).1[8 * y.val + x.val] ∧
      t.memRead .v x.val y.val = (Config.predC s.hdr.cmode s.ctx).2[8 * y.val + x.val])

/-- R102: `PREDY` completes from every state, whatever `HDR.PB`, overwrites all of `PX.Y` with the predictor's answer
for `HDR.YMODE`, and changes nothing else but the record of the request. -/
def Obligations.PredyResult : Prop :=
  encode .predy = 0x3000#16 ∧ ∀ s : State, ∃ t, exec .predy s = .next t ∧
    t = { s with px := t.px, preqs := { kind := .lumaMb, mode := s.hdr.ymode, col := 0#2, row := 0#2 } :: s.preqs } ∧
    (∀ a, (a < 0x600 ∨ 0x700 ≤ a) → t.px.read a = s.px.read a) ∧
    (s.px.wf = true → ∀ x y : Fin 16,
      t.memRead .y x.val y.val = (Config.predY s.hdr.ymode s.ctx)[16 * y.val + x.val])

/-- R103: `PREDB col, row` completes from every state, whatever `HDR.PB`, overwrites the 16 samples of luma sub-block
`(col, row)` with the predictor's answer for `BMODE[4*row + col]` and the old `PX.Y`, and changes nothing else but the
record of the request. -/
def Obligations.PredbResult : Prop :=
  ∀ (s : State) (col row : BitVec 2) (b : Fin 16), b.val = 4 * row.toNat + col.toNat →
    encode (.predb col row) = 0x4000#16 ||| (row.setWidth 16 <<< 2) ||| col.setWidth 16 ∧
    ∃ t, exec (.predb col row) s = .next t ∧
    t = { s with px := t.px, preqs := { kind := .lumaSb, mode := s.bmode[b], col := col, row := row } :: s.preqs } ∧
    (∀ a, ¬ inBlock .y col.toNat row.toNat a → t.px.read a = s.px.read a) ∧
    (s.px.wf = true → ∀ i k : Fin 4,
      t.memRead .y (4 * col.toNat + k.val) (4 * row.toNat + i.val) =
        (Config.predB s.bmode[b] col row (Vector.ofFn fun j => s.memRead .y (j.val % 16) (j.val / 16)) s.ctx)[indexAt i k])

/-- R75: `COPYY` completes from every state: `WC` takes the coefficients, coded flags and tags of the 16 luma blocks,
nothing else changes; taken twice it leaves the same state; the 16 tags are all pending or all final. -/
def Obligations.CopyyResult : Prop :=
  encode .copyy = 0x6000#16 ∧ ∀ s : State, ∃ t, exec .copyy s = .next t ∧ t = { s with wc := t.wc } ∧
    (∀ k : Fin 16, t.wc[k].coef = s.cb[k.val].coef ∧ t.wc[k].coded = s.cb[k.val].coded ∧
      t.wc[k].tag.toTag = s.tagCB (storeBlock k)) ∧
    (s.hdr.pb = false → s.cb[24].coded = true → ∀ k : Fin 16, t.wc[k].tag = .yWithY2) ∧
    (¬(s.hdr.pb = false ∧ s.cb[24].coded = true) → ∀ k : Fin 16, t.wc[k].tag = .yWithoutY2) ∧
    exec .copyy t = .next t

/-- R76 to R81: `WHT` completes when its three preconditions hold: each `WC[n]` takes the low 16 bits of its DC value
and becomes DC-final, its AC coefficients and flag kept; `DCOVF` is set exactly by a DC value that does not fit, never
cleared; only `WC`, `IM` and `DCOVF` change. -/
def Obligations.WhtResult : Prop :=
  ∀ s : State, s.hdr.pb = false → s.cb[24].coded = true → (∀ k : Fin 16, s.wc[k].tag = .yWithY2) →
    ∃ t, exec .wht s = .next t ∧
    t = { s with wc := t.wc, im := t.im, status := { s.status with dcovf := t.status.dcovf } } ∧
    (∀ n : Fin 16, t.wc[n].coef[0].toInt = wrapTo 16 ((whtSum s.cb[24].coef n + 3) / 8) ∧
      (∀ i : Fin 16, i ≠ 0 → t.wc[n].coef[i] = s.wc[n].coef[i]) ∧
      t.wc[n].coded = s.wc[n].coded ∧ t.wc[n].tag = .yWithoutY2) ∧
    (t.status.dcovf = true ↔ s.status.dcovf = true ∨
      ∃ n : Fin 16, (whtSum s.cb[24].coef n + 3) / 8 < -32768 ∨ 32767 < (whtSum s.cb[24].coef n + 3) / 8)

/-- R76, R129 to R131, R135 (3): the faults of `WHT` and their order: no Y2 block, then uncoded, then a destination not
pending; each enters the fault state with 0x7000 in `FINFO` and changes nothing else. -/
def Obligations.WhtFaultOrder : Prop :=
  ∀ s : State,
    let entry (c : FaultCode) : State :=
      { s with
        status := { s.status with fault := true, fcode := c, busy := false }
        finfo := 0x7000#16
        seq := { ph := .faulted, n := s.seq.n } }
    (s.hdr.pb = true → exec .wht s = .next (entry .whtNoY2)) ∧
    (s.hdr.pb = false → s.cb[24].coded = false → exec .wht s = .next (entry .whtUncoded)) ∧
    (s.hdr.pb = false → s.cb[24].coded = true → (∃ k : Fin 16, s.wc[k].tag ≠ .yWithY2) →
      exec .wht s = .next (entry .whtDstNotPending))

/-- R85, R90, R92, R95: `IDCT.Y col, row` completes when the luma blocks are DC-final: it adds the residual of
`CB[4*row + col]` to the 16 samples of luma sub-block `(col, row)` with clamping; only those samples and `IM` change. -/
def Obligations.IdctYResult : Prop :=
  ∀ (s : State) (col row : BitVec 2) (b : Fin 25), b.val = 4 * row.toNat + col.toNat →
    (s.hdr.pb = true ∨ s.cb[24].coded = false) →
    ∃ t, exec (.idctY col row) s = .next t ∧ t = { s with px := t.px, im := t.im } ∧
    (∀ a, ¬ inBlock .y col.toNat row.toNat a → t.px.read a = s.px.read a) ∧
    (s.px.wf = true → ∀ i k : Fin 4,
      let x := 4 * col.toNat + k.val
      let y := 4 * row.toNat + i.val
      ((t.memRead .y x y).toNat : Int) = clamp255 ((s.memRead .y x y).toNat + idctResidual s.cb[b].coef i k))

/-- R85, R90, R92, R95: `IDCT.W col, row` completes when `WC[4*row + col]` is DC-final: it adds that block's residual to
the 16 samples of luma sub-block `(col, row)` with clamping; only those samples and `IM` change. -/
def Obligations.IdctWResult : Prop :=
  ∀ (s : State) (col row : BitVec 2) (k : Fin 16), k.val = 4 * row.toNat + col.toNat →
    s.wc[k].tag = .yWithoutY2 →
    ∃ t, exec (.idctW col row) s = .next t ∧ t = { s with px := t.px, im := t.im } ∧
    (∀ a, ¬ inBlock .y col.toNat row.toNat a → t.px.read a = s.px.read a) ∧
    (s.px.wf = true → ∀ i j : Fin 4,
      let x := 4 * col.toNat + j.val
      let y := 4 * row.toNat + i.val
      ((t.memRead .y x y).toNat : Int) = clamp255 ((s.memRead .y x y).toNat + idctResidual s.wc[k].coef i j))

/-- R85, R90, R92, R95: `IDCT.U` and `IDCT.V` complete from every state, whatever the coded flag, for every position of
the chroma grid: each adds its block's residual to the 16 samples of its sub-block with clamping; only those samples and
`IM` change. -/
def Obligations.IdctChromaResult : Prop :=
  ∀ (s : State) (col row : BitVec 2), inChromaGrid col row = true →
    (∀ b : Fin 25, b.val = 16 + 2 * row.toNat + col.toNat →
      ∃ t, exec (.idctU col row) s = .next t ∧ t = { s with px := t.px, im := t.im } ∧
      (∀ a, ¬ inBlock .u col.toNat row.toNat a → t.px.read a = s.px.read a) ∧
      (s.px.wf = true → ∀ i k : Fin 4,
        let x := 4 * col.toNat + k.val
        let y := 4 * row.toNat + i.val
        ((t.memRead .u x y).toNat : Int) = clamp255 ((s.memRead .u x y).toNat + idctResidual s.cb[b].coef i k))) ∧
    (∀ b : Fin 25, b.val = 20 + 2 * row.toNat + col.toNat →
      ∃ t, exec (.idctV col row) s = .next t ∧ t = { s with px := t.px, im := t.im } ∧
      (∀ a, ¬ inBlock .v col.toNat row.toNat a → t.px.read a = s.px.read a) ∧
      (s.px.wf = true → ∀ i k : Fin 4,
        let x := 4 * col.toNat + k.val
        let y := 4 * row.toNat + i.val
        ((t.memRead .v x y).toNat : Int) = clamp255 ((s.memRead .v x y).toNat + idctResidual s.cb[b].coef i k)))

/-- R91, R128: an `IDCT` of a DC-pending block enters the fault state with the command word in `FINFO`, changing nothing
else: `IDCT.Y` when `HDR.PB = 0` and the Y2 block is coded, `IDCT.W` when its block's tag is pending. -/
def Obligations.IdctOfPendingBlockFaults : Prop :=
  ∀ (s : State) (col row : BitVec 2),
    let entry (w : Word) : State :=
      { s with
        status := { s.status with fault := true, fcode := .idctDcNotFinal, busy := false }
        finfo := w
        seq := { ph := .faulted, n := s.seq.n } }
    let pos : Word := (row.setWidth 16 <<< 2) ||| col.setWidth 16
    (s.hdr.pb = false → s.cb[24].coded = true → exec (.idctY col row) s = .next (entry (0x5000#16 ||| pos))) ∧
    (∀ k : Fin 16, k.val = 4 * row.toNat + col.toNat → s.wc[k].tag = .yWithY2 →
      exec (.idctW col row) s = .next (entry (0x5040#16 ||| pos)))

/-- R66 (e): a chroma term outside its 2 × 2 grid, which no word encodes, has no meaning. The refusal is the model's
choice (assumption 9). -/
def Obligations.ChromaTermOffTheGridIsRefused : Prop :=
  ∀ (s : State) (col row : BitVec 2), inChromaGrid col row = false →
    exec (.idctU col row) s = .refused .noSuchBlock ∧ exec (.idctV col row) s = .refused .noSuchBlock

/-- R94 (a): an `IDCT` of an all-zero block, in each of its four forms, changes no sample: in the canonical memory,
nothing but `IM`. -/
def Obligations.ZeroBlockChangesNothing : Prop :=
  ∀ (s : State) (col row : BitVec 2), s.px.wf = true →
    (∀ b : Fin 25, b.val = 4 * row.toNat + col.toNat → (s.hdr.pb = true ∨ s.cb[24].coded = false) →
      s.cb[b].coef = Coefs.zero → ∃ t, exec (.idctY col row) s = .next t ∧ t = { s with im := t.im }) ∧
    (∀ b : Fin 25, inChromaGrid col row = true → b.val = 16 + 2 * row.toNat + col.toNat →
      s.cb[b].coef = Coefs.zero → ∃ t, exec (.idctU col row) s = .next t ∧ t = { s with im := t.im }) ∧
    (∀ b : Fin 25, inChromaGrid col row = true → b.val = 20 + 2 * row.toNat + col.toNat →
      s.cb[b].coef = Coefs.zero → ∃ t, exec (.idctV col row) s = .next t ∧ t = { s with im := t.im }) ∧
    (∀ k : Fin 16, k.val = 4 * row.toNat + col.toNat → s.wc[k].tag = .yWithoutY2 →
      s.wc[k].coef = Coefs.zero → ∃ t, exec (.idctW col row) s = .next t ∧ t = { s with im := t.im })

/-! ### Which operation reaches which store -/

/-- R16, R52, R56: no core step writes the coefficient store, a coded flag, `HDR`, `BMODE`, `CUR`, the predictor's
context or the pending inputs. -/
def Obligations.CoreStepKeepsTheInputs : Prop :=
  ∀ s t : State, coreStep s = .next t →
    t.cb = s.cb ∧ t.hdr = s.hdr ∧ t.bmode = s.bmode ∧ t.cur = s.cur ∧ t.ctx = s.ctx ∧ t.events = s.events

/-- R24, R37, R52: only `COPYY` and `WHT` write the working copy, only `WHT` sets `DCOVF`, and only the prediction and
`IDCT` commands write samples. -/
def Obligations.EachStoreHasItsWriters : Prop :=
  ∀ (i : Instr) (s t : State), exec i s = .next t →
    (i ≠ .copyy → i ≠ .wht → t.wc = s.wc) ∧ (i ≠ .wht → t.status.dcovf = s.status.dcovf) ∧
    ((i = .runmb ∨ i = .copyy ∨ i = .wht) → t.px = s.px)

/-- R56, R98 (c), R157: while the core is busy, no event but a reset changes what the run reads, and none at all changes
the predictor's context. -/
def Obligations.InputsAreStableWhileBusy : Prop :=
  ∀ s t : State, s.status.busy = true → step s = .next t →
    t.ctx = s.ctx ∧
    ((∀ p, s.events.head? ≠ some (.reset p)) → t.cb = s.cb ∧ t.hdr = s.hdr ∧ t.bmode = s.bmode)

/-- R57: a chroma micro-op and a luma micro-op give the same state in either order, but for the scratch `IM` and the
order in which the predictor was asked. -/
def Obligations.ChromaAndLumaAreIndependent : Prop :=
  ∀ (i j : Instr) (s t1 t2 u1 u2 : State), isChromaOp i = true → isLumaOp j = true → s.px.wf = true →
    exec i s = .next t1 → exec j t1 = .next t2 → exec j s = .next u1 → exec i u1 = .next u2 →
    t2 = { u2 with im := t2.im, preqs := t2.preqs }

/-- R57: the luma `IDCT`s of two different sub-blocks, `IDCT.W` on the Y2 path and `IDCT.Y` on the direct path, give
the same samples in either order. -/
def Obligations.LumaBlocksInAnyOrder : Prop :=
  ∀ (s t1 t2 u1 u2 : State) (c r c' r' : BitVec 2), (c ≠ c' ∨ r ≠ r') → s.px.wf = true →
    (s.copyFinal = true →
      exec (.idctW c r) s = .next t1 → exec (.idctW c' r') t1 = .next t2 →
      exec (.idctW c' r') s = .next u1 → exec (.idctW c r) u1 = .next u2 →
      t2 = { u2 with im := t2.im }) ∧
    ((s.hdr.pb = true ∨ s.cb[24].coded = false) →
      exec (.idctY c r) s = .next t1 → exec (.idctY c' r') t1 = .next t2 →
      exec (.idctY c' r') s = .next u1 → exec (.idctY c r) u1 = .next u2 →
      t2 = { u2 with im := t2.im })

/-! ### Acceptance, steps, the sequencer -/

/-- R106: what a write of `CMD` does: while idle `DONE` and `DCOVF` are cleared and then an illegal word faults, `RUNMB`
starts the sequencer and any other legal word is latched for its step; while busy it is a host-write fault; in the fault
state it is ignored. -/
def Obligations.AcceptanceOfACommand : Prop :=
  ∀ (s : State) (w : Word),
    (s.isIdle = true → w ∉ legalWords → s.hostWrite 0x000#11 w = .next { s with
      status := { busy := false, done := false, fault := true, dcovf := false, fcode := .illegalCmd }
      finfo := w
      seq := { ph := .faulted, n := s.seq.n } }) ∧
    (s.isIdle = true → w = 0x1000#16 → s.hostWrite 0x000#11 w = .next { s with
      status := { s.status with busy := true, done := false, dcovf := false }
      seq := { ph := .cPred, n := 0#4 } }) ∧
    (s.isIdle = true → w ∈ legalWords → w ≠ 0x1000#16 → s.hostWrite 0x000#11 w = .next { s with
      status := { s.status with busy := true, done := false, dcovf := false }
      cur := w
      seq := { ph := .direct, n := 0#4 } }) ∧
    (s.status.fault = false → s.status.busy = true → s.hostWrite 0x000#11 w = .next { s with
      status := { s.status with busy := false, fault := true, fcode := .hostWriteBusy }
      finfo := 0x0000#16
      seq := { ph := .faulted, n := s.seq.n } }) ∧
    (s.status.fault = true → s.hostWrite 0x000#11 w = .next s)

/-- R127: in a legal idle state an illegal word leaves `STATUS` = 0x0014, `FINFO` the word and `SEQ` = 0x00F0; no
micro-op is started and `CUR` is not written. -/
def Obligations.IllegalCommandFaults : Prop :=
  ∀ (s : State) (w : Word), s.inv = true → s.isIdle = true → w ∉ legalWords →
    ∃ t, s.hostWrite 0x000#11 w = .next t ∧ t.status.word = 0x0014#16 ∧ t.finfo = w ∧ t.seq.word = 0x00F0#16 ∧
      t.status.done = false ∧ t.status.dcovf = false ∧ t.cur = s.cur ∧ t.px = s.px ∧ t.wc = s.wc ∧ t.im = s.im

/-- R120: a step at `(DIRECT, 0)` is the micro-op whose word is `CUR`, by its own meaning, then `END` unless it raised a
fault. -/
def Obligations.DirectStepRunsTheLatchedCommand : Prop :=
  ∀ (s : State) (i : Instr) (rest : List Event), s.isRunning = true → s.seq = { ph := .direct, n := 0#4 } →
    decode s.cur = .ok i → i ≠ .runmb → (s.events = .coreStep :: rest ∨ (s.events = [] ∧ rest = [])) →
    ∃ t, exec i { s with events := rest } = .next t ∧
      step s = .next (if t.status.fault then t else
        { t with status := { t.status with busy := false, done := true }, seq := { ph := .idle, n := 0#4 } })

/-- The very next step after `withFetchWord` runs the word's command: a micro-op by its meaning and then `END`, `RUNMB`
by its meaning at acceptance (R106, R120). How the word comes to stand there is the model's (assumption 10). -/
def Obligations.StepRunsTheFetchedWord : Prop :=
  ∀ (s : State) (w : Word) (i : Instr), decode w = .ok i →
    (i ≠ .runmb → step (s.withFetchWord 16 w.toNat) = afterMicroOp (exec i { s with
      status := { busy := true, done := false, fault := false, dcovf := false, fcode := .none }
      finfo := 0#16
      cur := w
      seq := { ph := .direct, n := 0#4 } }) none) ∧
    (i = .runmb → step (s.withFetchWord 16 w.toNat) = exec .runmb { s with
      status := { busy := false, done := false, fault := false, dcovf := false, fcode := .none }
      finfo := 0#16
      seq := { ph := .idle, n := 0#4 } })

/-- R110, R111, R112: the steps of the two chroma phases, the words they dispatch, and that the second is reached only
when `HNZ` = 1. -/
def Obligations.ChromaPhaseSteps : Prop :=
  ∀ s : State, s.isRunning = true →
    let entry : Sequencer := if s.hdr.pb then { ph := .bPred, n := 0#4 } else { ph := .yPred, n := 0#4 }
    (s.inv = true → s.seq.ph = .cIdct → s.hdr.hnz = true) ∧
    (s.seq = { ph := .cPred, n := 0#4 } →
      coreStep s = afterMicroOp (exec .predc s) (some (if s.hdr.hnz then { ph := .cIdct, n := 0#4 } else entry))) ∧
    (∀ n : Fin 8, s.seq = { ph := .cIdct, n := BitVec.ofNat 4 n.val } →
      let target : Sequencer := if n.val < 7 then { ph := .cIdct, n := BitVec.ofNat 4 (n.val + 1) } else entry
      let col : BitVec 2 := BitVec.ofNat 2 (n.val % 2)
      let row : BitVec 2 := BitVec.ofNat 2 (n.val % 4 / 2)
      (s.cb[16 + n.val].coded = false → coreStep s = .next { s with seq := target }) ∧
      (s.cb[16 + n.val].coded = true → n.val < 4 →
        coreStep s = afterMicroOp (exec (.idctU col row) s) (some target)) ∧
      (s.cb[16 + n.val].coded = true → 4 ≤ n.val →
        coreStep s = afterMicroOp (exec (.idctV col row) s) (some target)) ∧
      encode (.idctU col row) = 0x5010#16 ||| (row.setWidth 16 <<< 2) ||| col.setWidth 16 ∧
      encode (.idctV col row) = 0x5020#16 ||| (row.setWidth 16 <<< 2) ||| col.setWidth 16)

/-- R113 to R117: the steps of the whole-macroblock luma phases, the words they dispatch, and why none faults on these
paths. -/
def Obligations.WholeMacroblockSteps : Prop :=
  ∀ s : State, s.isRunning = true →
    (s.seq = { ph := .yPred, n := 0#4 } → coreStep s = afterMicroOp (exec .predy s)
      (if s.hdr.hnz = false then none
       else if s.cb[24].coded then some { ph := .yCopy, n := 0#4 } else some { ph := .yIdctD, n := 0#4 })) ∧
    (s.seq = { ph := .yCopy, n := 0#4 } →
      coreStep s = afterMicroOp (exec .copyy s) (some { ph := .yWht, n := 0#4 })) ∧
    (s.seq = { ph := .yWht, n := 0#4 } →
      coreStep s = afterMicroOp (exec .wht s) (some { ph := .yIdctW, n := 0#4 })) ∧
    (∀ n : Fin 16,
      let col : BitVec 2 := BitVec.ofNat 2 (n.val % 4)
      let row : BitVec 2 := BitVec.ofNat 2 (n.val / 4)
      (s.seq = { ph := .yIdctW, n := BitVec.ofNat 4 n.val } → coreStep s = afterMicroOp (exec (.idctW col row) s)
        (if n.val < 15 then some { ph := .yIdctW, n := BitVec.ofNat 4 (n.val + 1) } else none)) ∧
      (s.seq = { ph := .yIdctD, n := BitVec.ofNat 4 n.val } → coreStep s = afterMicroOp (exec (.idctY col row) s)
        (if n.val < 15 then some { ph := .yIdctD, n := BitVec.ofNat 4 (n.val + 1) } else none)) ∧
      encode (.idctW col row) = 0x5040#16 ||| BitVec.ofNat 16 n.val ∧
      encode (.idctY col row) = 0x5000#16 ||| BitVec.ofNat 16 n.val) ∧
    (s.inv = true → s.seq.ph = .yWht →
      s.hdr.pb = false ∧ s.cb[24].coded = true ∧ ∀ k : Fin 16, s.wc[k].tag = .yWithY2) ∧
    (s.inv = true → s.seq.ph = .yIdctD → ∀ k : Fin 16, s.tagCB (storeBlock k) = .yWithoutY2)

/-- R118, R119: the steps of the per-block luma phases, the words they dispatch, and why the `IDCT` does not fault. -/
def Obligations.PerBlockSteps : Prop :=
  ∀ s : State, s.isRunning = true → ∀ n : Fin 16,
    let col : BitVec 2 := BitVec.ofNat 2 (n.val % 4)
    let row : BitVec 2 := BitVec.ofNat 2 (n.val / 4)
    let following : Option Sequencer :=
      if n.val < 15 then some { ph := .bPred, n := BitVec.ofNat 4 (n.val + 1) } else none
    (s.seq = { ph := .bPred, n := BitVec.ofNat 4 n.val } → coreStep s = afterMicroOp (exec (.predb col row) s)
      (if s.hdr.hnz then some { ph := .bIdct, n := BitVec.ofNat 4 n.val } else following)) ∧
    (s.seq = { ph := .bIdct, n := BitVec.ofNat 4 n.val } →
      coreStep s = afterMicroOp (exec (.idctY col row) s) following) ∧
    encode (.predb col row) = 0x4000#16 ||| BitVec.ofNat 16 n.val ∧
    encode (.idctY col row) = 0x5000#16 ||| BitVec.ofNat 16 n.val ∧
    (s.inv = true → s.seq.ph = .bIdct → s.hdr.hnz = true ∧ s.hdr.pb = true ∧ s.tagCB (storeBlock n) = .yWithoutY2)

/-- R121: `END`, part of the last step of a command that did not fault: `BUSY` is cleared, `DONE` set, `SEQ` returns to
`(IDLE, 0)`, `DCOVF` and all else stay as the command left them, and the core is idle. -/
def Obligations.EndOfACommand : Prop :=
  ∀ (s u : State) (i : Instr), s.isRunning = true → s.seqAction = some (.run i) → s.seqTarget = none →
    exec i s = .next u → u.status.fault = false →
    ∃ t, coreStep s = .next t ∧ t.isIdle = true ∧
      t = { u with status := { u.status with busy := false, done := true }, seq := { ph := .idle, n := 0#4 } }

/-- R107, R150: with no input pending an idle core stays as it is, and an event of a core step changes nothing of it. -/
def Obligations.IdleCoreRests : Prop :=
  ∀ (s : State) (rest : List Event), s.isIdle = true →
    (s.events = [] → step s = .next s) ∧ (s.events = .coreStep :: rest → step s = .next { s with events := rest })

/-! ### The host bus -/

/-- R132: any host write while busy faults, whatever its address and value, is discarded, and leaves all else as the
completed steps left it; no further step is taken; a host read while busy raises nothing. -/
def Obligations.HostWriteWhileBusyFaults : Prop :=
  ∀ (s : State) (a : HAddr) (v : Word), s.status.busy = true → s.status.fault = false →
    s.hostWrite a v = .next { s with
      status := { s.status with fault := true, fcode := .hostWriteBusy, busy := false }
      finfo := a.setWidth 16
      seq := { ph := .faulted, n := s.seq.n } } ∧
    (∀ t, s.hostWrite a v = .next t → coreStep t = .next t) ∧
    (s.hostRead a).status = s.status ∧ (s.hostRead a).finfo = s.finfo

/-- R47: a host read changes nothing of the CORE; it returns the map's content while not busy, reserved addresses and
`CMD` reading 0, and while busy the true value of `STATUS`, `FINFO`, `SEQ` and `ID`. -/
def Obligations.HostReadReturnsTheContent : Prop :=
  ∀ (s : State) (a : HAddr),
    s.hostRead a = { s with rdata := s.hostReadValue a, freeReads := (s.hostRead a).freeReads } ∧
    (s.status.busy = false → s.hostReadValue a = s.content (hostReg a)) ∧
    (s.status.busy = false → a = 0x000#11 → s.hostReadValue a = 0#16) ∧
    s.hostReadValue 0x001#11 = s.status.word ∧ s.hostReadValue 0x003#11 = s.finfo ∧
    s.hostReadValue 0x004#11 = s.seq.word ∧ s.hostReadValue 0x005#11 = 0xA1FA#16

/-- R43, R44, R45: the three data windows: coefficients read and written whole, samples in bits 7:0 with the rest
ignored, the working copy read only. -/
def Obligations.DataWindows : Prop :=
  ∀ (s : State) (v : Word),
    (∀ (b : Fin 25) (i : Fin 16), let a : HAddr := BitVec.ofNat 11 (0x200 + 16 * b.val + i.val)
      (s.status.busy = false → s.hostReadValue a = s.cb[b].coef[i]) ∧
      (s.isIdle = true → ∃ t, s.hostWrite a v = .next t ∧ t = { s with cb := t.cb } ∧
        ∀ (b' : Fin 25) (i' : Fin 16), t.cb[b'].coded = s.cb[b'].coded ∧
          t.cb[b'].coef[i'] = if b' = b ∧ i' = i then v else s.cb[b'].coef[i'])) ∧
    (∀ (p : Plane) (x y : Nat), x < planeWidth p → y < planeWidth p →
      let a : HAddr := BitVec.ofNat 11 (sampleAddr p x y)
      (s.status.busy = false → s.hostReadValue a = (s.memRead p x y).setWidth 16) ∧
      (s.isIdle = true → ∃ t, s.hostWrite a v = .next t ∧ t = { s with px := t.px } ∧
        (s.px.wf = true → t.memRead p x y = v.setWidth 8) ∧
        ∀ a', a' ≠ sampleAddr p x y → t.px.read a' = s.px.read a')) ∧
    (∀ k i : Fin 16, let a : HAddr := BitVec.ofNat 11 (0x400 + 16 * k.val + i.val)
      (s.status.busy = false → s.hostReadValue a = s.wc[k].coef[i]) ∧
      (s.isIdle = true → s.hostWrite a v = .next s))

/-- R49: reserved addresses read 0 and ignore writes when the core is not busy, read-only registers ignore writes, the
reserved bits of `STATUS`, `HDR`, `SEQ`, `CODED_HI` and a sample word read 0 and a write ignores them; while busy the busy arm of R48 comes first. -/
def Obligations.ReservedReadsZeroIgnoresWrites : Prop :=
  ∀ (s : State) (a : HAddr) (v : Word),
    let n := a.toNat
    let unmapped := n = 0x006 ∨ n = 0x007 ∨ (0x00C ≤ n ∧ n ≤ 0x00F) ∨ (0x014 ≤ n ∧ n ≤ 0x1FF) ∨
      (0x390 ≤ n ∧ n ≤ 0x3FF) ∨ (0x500 ≤ n ∧ n ≤ 0x5FF) ∨ 0x780 ≤ n
    let readOnly := n = 0x001 ∨ n = 0x003 ∨ n = 0x004 ∨ n = 0x005 ∨ n = 0x012 ∨ n = 0x013 ∨
      (0x400 ≤ n ∧ n ≤ 0x4FF)
    (unmapped → s.status.busy = false → s.hostReadValue a = 0#16) ∧
    (unmapped ∨ readOnly → s.status.busy = false → s.hostWrite a v = .next s) ∧
    (unmapped ∨ readOnly → s.status.fault = false → s.status.busy = true →
      s.hostWrite a v = .next (s.raiseFault .hostWriteBusy (a.setWidth 16))) ∧
    s.hdr.word &&& 0xF00C#16 = 0#16 ∧ s.codedHi &&& 0xFE00#16 = 0#16 ∧
    s.status.word.extractLsb' 8 8 = 0#8 ∧ s.seq.word.extractLsb' 8 8 = 0#8 ∧
    (s.content (.sample n)).extractLsb' 8 8 = 0#8 ∧
    s.hostWrite 0x002#11 v = s.hostWrite 0x002#11 (v &&& 0x0FF3#16) ∧
    s.hostWrite 0x011#11 v = s.hostWrite 0x011#11 (v &&& 0x01FF#16) ∧
    (0x600 ≤ n → n ≤ 0x77F → s.hostWrite a v = s.hostWrite a (v &&& 0x00FF#16))

/-- R48: an idle host write of a register other than `CMD` completes and changes the content of no other address. -/
def Obligations.HostWriteChangesOneElement : Prop :=
  ∀ (s : State) (a a' : HAddr) (v : Word), s.isIdle = true → a ≠ 0x000#11 → a' ≠ a →
    ∃ t, s.hostWrite a v = .next t ∧ t.hostReadValue a' = s.hostReadValue a' ∧ t.status = s.status ∧
      t.seq = s.seq ∧ t.im = s.im ∧ t.cur = s.cur

/-- R22, R23, R36, R48: what a register reads after an idle write of it: `HDR`, `BMODEr` and the coded flags, reserved
bits ignored. -/
def Obligations.HostWriteReadsBack : Prop :=
  ∀ (s : State) (v : Word), s.isIdle = true →
    (∃ t, s.hostWrite 0x002#11 v = .next t ∧ t.hostReadValue 0x002#11 = v &&& 0x0FF3#16) ∧
    (∀ r : Fin 4, let a : HAddr := BitVec.ofNat 11 (0x008 + r.val)
      ∃ t, s.hostWrite a v = .next t ∧ t.hostReadValue a = v ∧
        ∀ c : Fin 4, t.bmode[4 * r.val + c.val] = v.extractLsb' (4 * c.val) 4) ∧
    (∃ t, s.hostWrite 0x010#11 v = .next t ∧ t.hostReadValue 0x010#11 = v ∧
      ∀ b : Fin 16, t.cb[b.val].coded = v.getLsbD b.val) ∧
    (∃ t, s.hostWrite 0x011#11 v = .next t ∧ t.hostReadValue 0x011#11 = v &&& 0x01FF#16 ∧
      ∀ j : Fin 9, t.cb[16 + j.val].coded = v.getLsbD j.val)

/-- R36: the four flag views, bit by bit; `WPEND` and `WCODED` are read only. -/
def Obligations.FlagViews : Prop :=
  ∀ (s : State) (v : Word), s.status.busy = false →
    (∀ b : Fin 16, (s.hostReadValue 0x010#11).getLsbD b.val = s.cb[b.val].coded) ∧
    (∀ j : Fin 9, (s.hostReadValue 0x011#11).getLsbD j.val = s.cb[16 + j.val].coded) ∧
    (s.hostReadValue 0x011#11).extractLsb' 9 7 = 0#7 ∧
    (∀ k : Fin 16, (s.hostReadValue 0x012#11).getLsbD k.val = true ↔ s.wc[k].tag = .yWithY2) ∧
    (∀ k : Fin 16, (s.hostReadValue 0x013#11).getLsbD k.val = s.wc[k].coded) ∧
    s.hostWrite 0x012#11 v = .next s ∧ s.hostWrite 0x013#11 v = .next s ∧
    (s.isIdle = true → ∃ t, s.hostWrite 0x010#11 v = .next t ∧ t = { s with cb := t.cb } ∧
      ∀ b : Fin 25, t.cb[b] = { s.cb[b] with coded := if b.val < 16 then v.getLsbD b.val else s.cb[b].coded }) ∧
    (s.isIdle = true → ∃ t, s.hostWrite 0x011#11 v = .next t ∧ t = { s with cb := t.cb } ∧
      ∀ b : Fin 25, t.cb[b] = { s.cb[b] with coded := if b.val < 16 then s.cb[b].coded else v.getLsbD (b.val - 16) })

/-- R22, R30, R31: the fields of `STATUS`, `HDR` and `SEQ` stand in the bits the spec gives them; R126, R109, R100, R69,
R71: the numbers of the causes, phases, request kinds, planes and tags; R139: the pins copy three bits of `STATUS`. -/
def Obligations.ControlRegisterLayouts : Prop :=
  (∀ (st : Status) (h : Header) (q : Sequencer),
    (st.word.getLsbD 0 = st.busy ∧ st.word.getLsbD 1 = st.done ∧ st.word.getLsbD 2 = st.fault ∧
      st.word.getLsbD 3 = st.dcovf ∧ st.word.extractLsb' 4 4 = st.fcode.code ∧ st.word.extractLsb' 8 8 = 0#8) ∧
    (h.word.getLsbD 0 = h.pb ∧ h.word.getLsbD 1 = h.hnz ∧ h.word.extractLsb' 2 2 = 0#2 ∧
      h.word.extractLsb' 4 4 = h.ymode ∧ h.word.extractLsb' 8 4 = h.cmode ∧ h.word.extractLsb' 12 4 = 0#4) ∧
    (q.word.extractLsb' 0 4 = q.n ∧ q.word.extractLsb' 4 4 = q.ph.code ∧ q.word.extractLsb' 8 8 = 0#8)) ∧
  (FaultCode.none.code = 0#4 ∧ FaultCode.illegalCmd.code = 1#4 ∧ FaultCode.idctDcNotFinal.code = 2#4 ∧
    FaultCode.whtUncoded.code = 3#4 ∧ FaultCode.whtNoY2.code = 4#4 ∧ FaultCode.whtDstNotPending.code = 5#4 ∧
    FaultCode.hostWriteBusy.code = 6#4) ∧
  (Phase.idle.code = 0#4 ∧ Phase.cPred.code = 1#4 ∧ Phase.cIdct.code = 2#4 ∧ Phase.yPred.code = 3#4 ∧
    Phase.yCopy.code = 4#4 ∧ Phase.yWht.code = 5#4 ∧ Phase.yIdctW.code = 6#4 ∧ Phase.yIdctD.code = 7#4 ∧
    Phase.bPred.code = 8#4 ∧ Phase.bIdct.code = 9#4 ∧ Phase.direct.code = 10#4 ∧ Phase.faulted.code = 15#4) ∧
  (PredKind.chroma.code = 0#2 ∧ PredKind.lumaMb.code = 1#2 ∧ PredKind.lumaSb.code = 2#2) ∧
  (Plane.y.code = 0#2 ∧ Plane.u.code = 1#2 ∧ Plane.v.code = 2#2) ∧
  (Tag.yWithoutY2.code = 0#2 ∧ Tag.yWithY2.code = 1#2 ∧ Tag.y2.code = 2#2 ∧ Tag.uv.code = 3#2) ∧
  (∀ s : State, s.pins = (s.status.word.getLsbD 0, s.status.word.getLsbD 1, s.status.word.getLsbD 2))

/-! ### The fault state and reset -/

/-- R133, R134: a step of a legal state that enters the fault state leaves all data as it was: `BUSY` and `DONE` are 0,
`SEQ` keeps its index, and `CB`, `HDR`, `BMODE`, `WC`, `IM`, `PX` and `CUR` are unchanged. -/
def Obligations.FaultEntryIsPrecise : Prop :=
  ∀ s t : State, s.inv = true → s.status.fault = false → step s = .next t → t.status.fault = true →
    t.status.busy = false ∧ t.status.done = false ∧ t.status.fcode ≠ .none ∧
    t.seq = { ph := .faulted, n := s.seq.n } ∧
    t = { s with
      status := t.status, finfo := t.finfo, seq := t.seq
      events := s.events.tail }

/-- R136: in the fault state the core takes no step, every host write is ignored, and a host read works as when idle. -/
def Obligations.FaultStateIsFrozen : Prop :=
  ∀ s : State, s.inv = true → s.status.fault = true →
    coreStep s = .next s ∧ (∀ (a : HAddr) (v : Word), s.hostWrite a v = .next s) ∧
    (∀ a : HAddr, s.hostReadValue a = s.content (hostReg a))

/-- R137: only a reset leaves the fault state, and until then the first fault's `FCODE`, `FINFO` and `SEQ` stay. -/
def Obligations.OnlyResetLeavesTheFaultState : Prop :=
  ∀ s t : State, s.status.fault = true → step s = .next t →
    (∃ p, s.events.head? = some (.reset p)) ∨
    (t.status = s.status ∧ t.finfo = s.finfo ∧ t.seq = s.seq ∧ t.px = s.px ∧ t.wc = s.wc ∧ t.cb = s.cb)

/-- R40, R148, R149: a reset, from any state, leaves the control state of R40 and whatever the data stores come up with,
in a legal state. -/
def Obligations.ResetEffect : Prop :=
  ∀ (s : State) (p : PowerUp) (rest : List Event), s.events = .reset p :: rest →
    ∃ t, step s = .next t ∧ t.inv = true ∧ t.isIdle = true ∧ t.status.word = 0#16 ∧ t.seq.word = 0#16 ∧
      t.finfo = 0#16 ∧ t.hdr.word = 0#16 ∧ (∀ n : Fin 16, t.bmode[n] = 0#4) ∧
      (∀ b : Fin 25, t.cb[b].coded = false ∧ t.cb[b].coef = p.cbCoef[b]) ∧
      (∀ k : Fin 16, t.wc[k].tag = .yWithY2 ∧ t.wc[k].coded = false ∧ t.wc[k].coef = p.wcCoef[k]) ∧
      t.wpend = 0xFFFF#16 ∧ t.im = p.im ∧ t.cur = p.cur ∧
      (∀ j : Fin 384, t.px.read (0x600 + j.val) = p.px[j])

/-- The reset state is legal (R40; its data stores are the model's choice, assumptions 1 to 4). -/
def Obligations.ResetStateIsLegal : Prop := State.reset.inv = true

/-! ### The whole machine -/

/-- Every step of a legal state leads to a legal state: the raster memory stays canonical, at most one of `BUSY` and
`FAULT` is set, `DONE` means neither, and the sequencer stays in R109's range with the conditions of its phase. -/
def Obligations.StepKeepsTheLegalStates : Prop :=
  ∀ s t : State, s.inv = true → step s = .next t → t.inv = true

/-- The machine never stops: from a legal state every step, whatever the host does, answers a next state (R107). -/
def Obligations.LegalStatesAlwaysStep : Prop :=
  ∀ s : State, s.inv = true → ∃ t, step s = .next t

/-- R123 (c): no micro-op a `RUNMB` run dispatches faults. -/
def Obligations.RunmbStepsNeverFault : Prop :=
  ∀ s : State, s.inv = true → s.isRunning = true → s.seq.ph ≠ .direct →
    ∃ t, coreStep s = .next t ∧ t.status.fault = false

/-- R107, R123 (f): from any point of a command the core reaches its end within 41 steps, with `DONE` or in the fault
state; a `RUNMB` run ends with `DONE`. -/
def Obligations.EveryCommandEnds : Prop :=
  ∀ s : State, s.inv = true → s.isRunning = true →
    ∃ k t, 1 ≤ k ∧ k ≤ 41 ∧ coreSteps k s = .next t ∧ t.isRunning = false ∧
      ((t.isIdle = true ∧ t.status.done = true) ∨ (t.status.fault = true ∧ s.seq.ph = .direct))

/-- R108, R123 (a), (b): a `RUNMB` run is the spec's program: after exactly the table's number of core steps the machine
is where executing the program's micro-ops one after another and then `END` leads, and the program has the table's
number of micro-ops. -/
def Obligations.RunmbRefinesTheProgram : Prop :=
  ∀ s s0 : State, s.inv = true → s.isIdle = true → s.hostWrite 0x000#11 0x1000#16 = .next s0 →
    (∃ t, execAll s.runProgram s0 = .next t ∧ coreSteps s.runSteps s0 = .next t.endCommand) ∧
    s.runProgram.length = (match s.hdr.pb, s.hdr.hnz, s.y2Coded with
      | false, false, _ => 2
      | true, false, _ => 17
      | false, true, true => 20 + s.codedChroma
      | false, true, false => 18 + s.codedChroma
      | true, true, _ => 33 + s.codedChroma)

/-- R124 (a): with `HNZ = 0` and whole-macroblock luma, a run ends with exactly the prediction in `PX`, and the working
copy untouched. -/
def Obligations.NoResidualMeansPrediction : Prop :=
  ∀ s s0 : State, s.inv = true → s.isIdle = true → s.hdr.hnz = false → s.hdr.pb = false →
    s.hostWrite 0x000#11 0x1000#16 = .next s0 →
    ∃ t, coreSteps 2 s0 = .next t ∧ t.status.word = 0x0002#16 ∧ t.wc = s.wc ∧
      (∀ x y : Fin 16, t.memRead .y x.val y.val = (Config.predY s.hdr.ymode s.ctx)[16 * y.val + x.val]) ∧
      (∀ x y : Fin 8, t.memRead .u x.val y.val = (Config.predC s.hdr.cmode s.ctx).1[8 * y.val + x.val] ∧
        t.memRead .v x.val y.val = (Config.predC s.hdr.cmode s.ctx).2[8 * y.val + x.val])

/-- R108, R122: a run on the Y2 path ends with, in each luma sample, the prediction plus the residual of the block whose
DC is the patched one, clamped; the originals are untouched and the working copy holds the patched blocks. -/
def Obligations.Y2PathReconstruction : Prop :=
  ∀ s s0 : State, s.inv = true → s.isIdle = true → s.hdr.hnz = true → s.hdr.pb = false → s.cb[24].coded = true →
    s.hostWrite 0x000#11 0x1000#16 = .next s0 →
    ∃ t, coreSteps 28 s0 = .next t ∧ t.isIdle = true ∧ t.status.done = true ∧ t.cb = s.cb ∧
      ∀ b : Fin 16,
        let patched : Coefs := s.cb[b.val].coef.set 0 (BitVec.ofInt 16 ((whtSum s.cb[24].coef b + 3) / 8))
        t.wc[b].coef = patched ∧
        ∀ i k : Fin 4,
          let x : Fin 16 := ⟨4 * (b.val % 4) + k.val, by omega⟩
          let y : Fin 16 := ⟨4 * (b.val / 4) + i.val, by omega⟩
          ((t.memRead .y x.val y.val).toNat : Int) =
            clamp255 ((Config.predY s.hdr.ymode s.ctx)[16 * y.val + x.val].toNat + idctResidual patched i k)
end

