-- ==== Sys2Proof/Laws/Memory.lean ====
section
/-! SUPPORT. The raster memory: every operation keeps the canonical form, a read after a write, and equal contents are
equal data. -/

namespace Sys2Proof.Machine


/-! ### The canonical form -/

theorem Memory.wfFrom_cons {lo a : Nat} {v : Byte} {rest : Memory} :
    wfFrom lo ((a, v) :: rest) = true ↔ lo ≤ a ∧ a < endAddr ∧ v ≠ unlisted ∧ wfFrom (a + 1) rest = true := by
  simp [wfFrom, and_assoc]

theorem Memory.wfFrom_of_le {lo lo' : Nat} {m : Memory} (h : wfFrom lo m = true) (hle : lo' ≤ lo) : wfFrom lo' m = true := by
  cases m with
  | nil => rfl
  | cons c rest =>
    obtain ⟨h1, h2⟩ := wfFrom_cons.mp h
    exact wfFrom_cons.mpr ⟨hle.trans h1, h2⟩

/-- Below the first listed address nothing is listed. -/
theorem Memory.read_of_lt {lo a : Nat} {m : Memory} (h : wfFrom lo m = true) (ha : a < lo) : read m a = unlisted := by
  induction m generalizing lo with
  | nil => rfl
  | cons c rest ih =>
    obtain ⟨h1, -, -, h4⟩ := wfFrom_cons.mp h
    have hne : c.1 ≠ a := by omega
    simpa [read, hne] using ih h4 (by omega)

/-- A write keeps the canonical form. -/
theorem Memory.write_wfFrom {lo a : Nat} {v : Byte} {m : Memory} (h : wfFrom lo m = true) (h1 : lo ≤ a) (h2 : a < endAddr) :
    wfFrom lo (write m a v) = true := by
  induction m generalizing lo with
  | nil => by_cases hv : v = unlisted <;> simp [write, hv, wfFrom, h1, h2]
  | cons c rest ih =>
    obtain ⟨k, w⟩ := c
    obtain ⟨g1, g2, g3, g4⟩ := wfFrom_cons.mp h
    by_cases hlt : a < k
    · by_cases hv : v = unlisted
      · simpa [write, hlt, hv] using h
      · simp only [write, hlt, hv, if_true, if_false]
        exact wfFrom_cons.mpr ⟨h1, h2, hv, wfFrom_cons.mpr ⟨hlt, g2, g3, g4⟩⟩
    · by_cases heq : a = k
      · by_cases hv : v = unlisted
        · simpa [write, heq, hv] using wfFrom_of_le g4 (by omega)
        · subst heq
          simp only [write, lt_irrefl, hv, if_true, if_false]
          exact wfFrom_cons.mpr ⟨h1, h2, hv, g4⟩
      · simp only [write, hlt, heq, if_false]
        exact wfFrom_cons.mpr ⟨g1, g2, g3, ih g4 (by omega)⟩

theorem Memory.write_wf {a : Nat} {v : Byte} {m : Memory} (h : wf m = true) (h1 : firstAddr ≤ a) (h2 : a < endAddr) :
    wf (write m a v) = true := write_wfFrom h h1 h2

/-- A list of writes inside the raster keeps the canonical form. -/
theorem Memory.writeMany_wf {m : Memory} {cells : List Host.Cell} (h : wf m = true)
    (hc : ∀ c ∈ cells, firstAddr ≤ c.1 ∧ c.1 < endAddr) : wf (writeMany m cells) = true := by
  induction cells generalizing m with
  | nil => exact h
  | cons c rest ih =>
    have hc0 := hc c (by simp)
    exact ih (write_wf h hc0.1 hc0.2) fun d hd => hc d (by simp [hd])

theorem Memory.ofBytes_wfFrom {a : Nat} {l : List Byte} (h : a + l.length ≤ endAddr) : wfFrom a (ofBytes a l) = true := by
  induction l generalizing a with
  | nil => rfl
  | cons b rest ih =>
    have hr := ih (a := a + 1) (by simp at h; omega)
    by_cases hb : b = unlisted
    · simpa [ofBytes, hb] using wfFrom_of_le hr (by omega)
    · simp only [ofBytes, hb, if_false]
      exact wfFrom_cons.mpr ⟨le_rfl, by simp at h; omega, hb, hr⟩

/-! ### Reads after writes -/

/-- A write leaves every other address alone, whatever the memory. -/
theorem Memory.read_write_of_ne {m : Memory} {a b : Nat} {v : Byte} (h : b ≠ a) : read (write m a v) b = read m b := by
  induction m with
  | nil => by_cases hv : v = unlisted <;> simp [write, hv, read, h.symm]
  | cons c rest ih =>
    obtain ⟨k, w⟩ := c
    by_cases hlt : a < k
    · by_cases hv : v = unlisted <;> simp [write, hlt, hv, read, h.symm]
    · by_cases heq : a = k
      · subst heq
        by_cases hv : v = unlisted <;> simp [write, hv, read, h.symm]
      · simp [write, hlt, heq, read, ih]

/-- A read of the address just written gives the value written. -/
theorem Memory.read_write_same {lo a : Nat} {v : Byte} {m : Memory} (h : wfFrom lo m = true) : read (write m a v) a = v := by
  induction m generalizing lo with
  | nil => by_cases hv : v = unlisted <;> simp [write, hv, read]
  | cons c rest ih =>
    obtain ⟨k, w⟩ := c
    obtain ⟨-, -, -, g4⟩ := wfFrom_cons.mp h
    by_cases hlt : a < k
    · have hne : k ≠ a := by omega
      by_cases hv : v = unlisted
      · simpa [write, hlt, hv, read, hne] using read_of_lt g4 (by omega)
      · simp [write, hlt, hv, read]
    · by_cases heq : a = k
      · subst heq
        by_cases hv : v = unlisted
        · simpa [write, hv] using read_of_lt g4 (Nat.lt_succ_self a)
        · simp [write, hv, read]
      · have hne : k ≠ a := fun e => heq e.symm
        simpa [write, hlt, heq, read, hne] using ih g4

theorem Memory.read_write {a b : Nat} {v : Byte} {m : Memory} (h : wf m = true) :
    read (write m a v) b = if b = a then v else read m b := by
  by_cases hb : b = a
  · subst hb; simpa using read_write_same h
  · simpa [hb] using read_write_of_ne hb

/-- Writes leave every address outside them alone, whatever the memory. -/
theorem Memory.read_writeMany_of_not_mem {m : Memory} {cells : List Host.Cell} {b : Nat} (h : ∀ c ∈ cells, b ≠ c.1) :
    read (writeMany m cells) b = read m b := by
  induction cells generalizing m with
  | nil => rfl
  | cons c rest ih =>
    exact (ih fun d hd => h d (by simp [hd])).trans (read_write_of_ne (h c (by simp)))

/-- Writes at distinct addresses of the raster: each address reads as its value. -/
theorem Memory.read_writeMany_map {ι : Type} {l : List ι} {addr : ι → Nat} {val : ι → Byte} {m : Memory} (hm : wf m = true)
    (hr : ∀ i ∈ l, firstAddr ≤ addr i ∧ addr i < endAddr) (hd : (l.map addr).Nodup) {i : ι} (hi : i ∈ l) :
    read (writeMany m (l.map fun i => (addr i, val i))) (addr i) = val i := by
  induction l generalizing m with
  | nil => simp at hi
  | cons j rest ih =>
    obtain ⟨hj, hrest⟩ := List.nodup_cons.mp hd
    have hj0 := hr j (by simp)
    have hstep : writeMany m ((j :: rest).map fun i => (addr i, val i))
        = writeMany (write m (addr j) (val j)) (rest.map fun i => (addr i, val i)) := rfl
    rw [hstep]
    rcases List.mem_cons.mp hi with rfl | hi'
    · rw [read_writeMany_of_not_mem, read_write_same hm]
      intro d hd' e
      obtain ⟨k, hk, rfl⟩ := List.mem_map.mp hd'
      exact hj (e ▸ List.mem_map_of_mem hk)
    · exact ih (write_wf hm hj0.1 hj0.2) (fun k hk => hr k (by simp [hk])) hrest hi'

/-- The memory of given bytes reads as them. -/
theorem Memory.read_ofBytes {a : Nat} {l : List Byte} (h : a + l.length ≤ endAddr) (j : Nat) (hj : j < l.length) :
    read (ofBytes a l) (a + j) = l[j] := by
  induction l generalizing a j with
  | nil => simp at hj
  | cons b rest ih =>
    have hlen : a + 1 + rest.length ≤ endAddr := by simp at h; omega
    have hr := ofBytes_wfFrom hlen
    cases j with
    | zero =>
      by_cases hb : b = unlisted
      · simpa [ofBytes, hb] using read_of_lt hr (Nat.lt_succ_self a)
      · simp [ofBytes, hb, read]
    | succ j =>
      have key := ih hlen j (by simpa using hj)
      have hshift : a + (j + 1) = a + 1 + j := by omega
      rw [hshift]
      by_cases hb : b = unlisted
      · simpa [ofBytes, hb] using key
      · have hne : a ≠ a + 1 + j := by omega
        simpa [ofBytes, hb, read, hne] using key

theorem Memory.ofBytes_replicate (a n : Nat) : ofBytes a (List.replicate n unlisted) = [] := by
  induction n generalizing a with
  | zero => rfl
  | succ n ih => simp [List.replicate_succ, ofBytes, ih]

/-! ### Equal contents are equal data -/

theorem Memory.ext_of_wfFrom {lo : Nat} {m m' : Memory} (h : wfFrom lo m = true) (h' : wfFrom lo m' = true)
    (hr : ∀ a, read m a = read m' a) : m = m' := by
  induction m generalizing lo m' with
  | nil =>
    cases m' with
    | nil => rfl
    | cons c rest =>
      obtain ⟨-, -, g3, -⟩ := wfFrom_cons.mp h'
      exact absurd (hr c.1).symm (by simpa [read] using g3)
  | cons c rest ih =>
    obtain ⟨a, v⟩ := c
    obtain ⟨g1, g2, g3, g4⟩ := wfFrom_cons.mp h
    cases m' with
    | nil => exact absurd (hr a) (by simpa [read] using g3)
    | cons c' rest' =>
      obtain ⟨a', v'⟩ := c'
      obtain ⟨k1, k2, k3, k4⟩ := wfFrom_cons.mp h'
      have ha : a = a' := by
        rcases Nat.lt_trichotomy a a' with hlt | heq | hgt
        · have h0 : read ((a', v') :: rest') a = unlisted :=
            read_of_lt (wfFrom_cons.mpr ⟨le_rfl, k2, k3, k4⟩) hlt
          exact absurd ((hr a).trans h0) (by simpa [read] using g3)
        · exact heq
        · have h0 : read ((a, v) :: rest) a' = unlisted :=
            read_of_lt (wfFrom_cons.mpr ⟨le_rfl, g2, g3, g4⟩) hgt
          exact absurd ((hr a').symm.trans h0) (by simpa [read] using k3)
      subst ha
      have hv : v = v' := by simpa [read] using hr a
      subst hv
      have hrest : rest = rest' := by
        refine ih g4 k4 fun b => ?_
        by_cases hb : a = b
        · subst hb
          rw [read_of_lt g4 (Nat.lt_succ_self a), read_of_lt k4 (Nat.lt_succ_self a)]
        · simpa [read, hb] using hr b
      rw [hrest]

/-- Two canonical memories that read the same everywhere are the same list. -/
theorem Memory.ext {m m' : Memory} (h : wf m = true) (h' : wf m' = true) (hr : ∀ a, read m a = read m' a) : m = m' :=
  ext_of_wfFrom h h' hr


/-! ### Where the samples lie -/

theorem blockAddr_y_range {col row : Nat} (hc : col < 4) (hr : row < 4) (j : Fin 16) :
    Memory.firstAddr ≤ blockAddr .y col row j ∧ blockAddr .y col row j < Memory.endAddr := by
  simp only [blockAddr, sampleAddr, planeBase, planeWidth, Memory.firstAddr, Memory.endAddr]; omega

theorem blockAddr_u_range {col row : Nat} (hc : col < 2) (hr : row < 2) (j : Fin 16) :
    Memory.firstAddr ≤ blockAddr .u col row j ∧ blockAddr .u col row j < Memory.endAddr := by
  simp only [blockAddr, sampleAddr, planeBase, planeWidth, Memory.firstAddr, Memory.endAddr]; omega

theorem blockAddr_v_range {col row : Nat} (hc : col < 2) (hr : row < 2) (j : Fin 16) :
    Memory.firstAddr ≤ blockAddr .v col row j ∧ blockAddr .v col row j < Memory.endAddr := by
  simp only [blockAddr, sampleAddr, planeBase, planeWidth, Memory.firstAddr, Memory.endAddr]; omega

/-- The 16 samples of a sub-block are 16 addresses (R28, R90). -/
theorem blockAddr_injective (p : Plane) (col row : Nat) : Function.Injective (blockAddr p col row) := by
  intro i j h
  cases p <;> simp only [blockAddr, sampleAddr, planeBase, planeWidth] at h <;> exact Fin.ext (by omega)

theorem blockAddr_nodup (p : Plane) (col row : Nat) : ((List.finRange 16).map (blockAddr p col row)).Nodup :=
  (List.nodup_finRange 16).map (blockAddr_injective p col row)

theorem mem_blockCells {p : Plane} {col row : Nat} {f : Fin 16 → Byte} {c : Host.Cell} :
    c ∈ blockCells p col row f ↔ ∃ j, c = (blockAddr p col row j, f j) := by
  simp [blockCells, eq_comm]

theorem mem_planeCells {n : Nat} {p : Plane} {v : Vector Byte n} {c : Host.Cell} :
    c ∈ planeCells p v ↔ ∃ j : Fin n, c = (planeBase p + j.val, v[j]) := by
  simp [planeCells, eq_comm]

/-- A sub-block just written reads as the values written. -/
theorem read_writeMany_blockCells {m : Memory} {p : Plane} {col row : Nat} {f : Fin 16 → Byte} (hm : m.wf = true)
    (hr : ∀ j, Memory.firstAddr ≤ blockAddr p col row j ∧ blockAddr p col row j < Memory.endAddr) (j : Fin 16) :
    (m.writeMany (blockCells p col row f)).read (blockAddr p col row j) = f j :=
  Memory.read_writeMany_map hm (fun i _ => hr i) (blockAddr_nodup p col row) (List.mem_finRange j)

/-- A plane just written reads as the values written. -/
theorem read_writeMany_planeCells {n : Nat} {m : Memory} {p : Plane} {v : Vector Byte n} (hm : m.wf = true)
    (hb : Memory.firstAddr ≤ planeBase p) (he : planeBase p + n ≤ Memory.endAddr) (j : Fin n) :
    (m.writeMany (planeCells p v)).read (planeBase p + j.val) = v[j] := by
  refine Memory.read_writeMany_map (addr := fun j : Fin n => planeBase p + j.val) (val := fun j => v[j]) hm
    (fun i _ => ⟨by omega, by omega⟩) ((List.nodup_finRange n).map fun i j h => Fin.ext (by simpa using h))
    (List.mem_finRange j)

end Sys2Proof.Machine
end

