-- ==== Sys2Proof/Laws/State.lean ====
section
/-! SUPPORT. One lemma for each field of State after each named operation, so that no proof unfolds a record update. -/

namespace Sys2Proof.Machine

/-! ### `State.goto` -/

@[simp] theorem State.goto_cb (s : State) (q : Sequencer) : (s.goto q).cb = s.cb := rfl
@[simp] theorem State.goto_hdr (s : State) (q : Sequencer) : (s.goto q).hdr = s.hdr := rfl
@[simp] theorem State.goto_bmode (s : State) (q : Sequencer) : (s.goto q).bmode = s.bmode := rfl
@[simp] theorem State.goto_wc (s : State) (q : Sequencer) : (s.goto q).wc = s.wc := rfl
@[simp] theorem State.goto_im (s : State) (q : Sequencer) : (s.goto q).im = s.im := rfl
@[simp] theorem State.goto_px (s : State) (q : Sequencer) : (s.goto q).px = s.px := rfl
@[simp] theorem State.goto_seq (s : State) (q : Sequencer) : (s.goto q).seq = q := rfl
@[simp] theorem State.goto_status (s : State) (q : Sequencer) : (s.goto q).status = s.status := rfl
@[simp] theorem State.goto_finfo (s : State) (q : Sequencer) : (s.goto q).finfo = s.finfo := rfl
@[simp] theorem State.goto_cur (s : State) (q : Sequencer) : (s.goto q).cur = s.cur := rfl
@[simp] theorem State.goto_ctx (s : State) (q : Sequencer) : (s.goto q).ctx = s.ctx := rfl
@[simp] theorem State.goto_events (s : State) (q : Sequencer) : (s.goto q).events = s.events := rfl
@[simp] theorem State.goto_rdata (s : State) (q : Sequencer) : (s.goto q).rdata = s.rdata := rfl
@[simp] theorem State.goto_freeReads (s : State) (q : Sequencer) : (s.goto q).freeReads = s.freeReads := rfl
@[simp] theorem State.goto_preqs (s : State) (q : Sequencer) : (s.goto q).preqs = s.preqs := rfl

/-! ### `State.endCommand` -/

@[simp] theorem State.endCommand_cb (s : State) : s.endCommand.cb = s.cb := rfl
@[simp] theorem State.endCommand_hdr (s : State) : s.endCommand.hdr = s.hdr := rfl
@[simp] theorem State.endCommand_bmode (s : State) : s.endCommand.bmode = s.bmode := rfl
@[simp] theorem State.endCommand_wc (s : State) : s.endCommand.wc = s.wc := rfl
@[simp] theorem State.endCommand_im (s : State) : s.endCommand.im = s.im := rfl
@[simp] theorem State.endCommand_px (s : State) : s.endCommand.px = s.px := rfl
@[simp] theorem State.endCommand_seq (s : State) : s.endCommand.seq = { ph := .idle, n := 0#4 } := rfl
@[simp] theorem State.endCommand_status (s : State) :
    s.endCommand.status = { s.status with busy := false, done := true } := rfl
@[simp] theorem State.endCommand_finfo (s : State) : s.endCommand.finfo = s.finfo := rfl
@[simp] theorem State.endCommand_cur (s : State) : s.endCommand.cur = s.cur := rfl
@[simp] theorem State.endCommand_ctx (s : State) : s.endCommand.ctx = s.ctx := rfl
@[simp] theorem State.endCommand_events (s : State) : s.endCommand.events = s.events := rfl
@[simp] theorem State.endCommand_rdata (s : State) : s.endCommand.rdata = s.rdata := rfl
@[simp] theorem State.endCommand_freeReads (s : State) : s.endCommand.freeReads = s.freeReads := rfl
@[simp] theorem State.endCommand_preqs (s : State) : s.endCommand.preqs = s.preqs := rfl

/-! ### `State.raiseFault` -/

@[simp] theorem State.raiseFault_cb (s : State) (c : FaultCode) (w : Word) : (s.raiseFault c w).cb = s.cb := rfl
@[simp] theorem State.raiseFault_hdr (s : State) (c : FaultCode) (w : Word) : (s.raiseFault c w).hdr = s.hdr := rfl
@[simp] theorem State.raiseFault_bmode (s : State) (c : FaultCode) (w : Word) :
    (s.raiseFault c w).bmode = s.bmode := rfl
@[simp] theorem State.raiseFault_wc (s : State) (c : FaultCode) (w : Word) : (s.raiseFault c w).wc = s.wc := rfl
@[simp] theorem State.raiseFault_im (s : State) (c : FaultCode) (w : Word) : (s.raiseFault c w).im = s.im := rfl
@[simp] theorem State.raiseFault_px (s : State) (c : FaultCode) (w : Word) : (s.raiseFault c w).px = s.px := rfl
@[simp] theorem State.raiseFault_seq (s : State) (c : FaultCode) (w : Word) :
    (s.raiseFault c w).seq = { ph := .faulted, n := s.seq.n } := rfl
@[simp] theorem State.raiseFault_status (s : State) (c : FaultCode) (w : Word) :
    (s.raiseFault c w).status = { s.status with fault := true, fcode := c, busy := false } := rfl
@[simp] theorem State.raiseFault_finfo (s : State) (c : FaultCode) (w : Word) : (s.raiseFault c w).finfo = w := rfl
@[simp] theorem State.raiseFault_cur (s : State) (c : FaultCode) (w : Word) : (s.raiseFault c w).cur = s.cur := rfl
@[simp] theorem State.raiseFault_ctx (s : State) (c : FaultCode) (w : Word) : (s.raiseFault c w).ctx = s.ctx := rfl
@[simp] theorem State.raiseFault_events (s : State) (c : FaultCode) (w : Word) :
    (s.raiseFault c w).events = s.events := rfl
@[simp] theorem State.raiseFault_rdata (s : State) (c : FaultCode) (w : Word) :
    (s.raiseFault c w).rdata = s.rdata := rfl
@[simp] theorem State.raiseFault_freeReads (s : State) (c : FaultCode) (w : Word) :
    (s.raiseFault c w).freeReads = s.freeReads := rfl
@[simp] theorem State.raiseFault_preqs (s : State) (c : FaultCode) (w : Word) :
    (s.raiseFault c w).preqs = s.preqs := rfl

/-! ### `State.request` -/

@[simp] theorem State.request_cb (s : State) (r : PredRequest) : (s.request r).cb = s.cb := rfl
@[simp] theorem State.request_hdr (s : State) (r : PredRequest) : (s.request r).hdr = s.hdr := rfl
@[simp] theorem State.request_bmode (s : State) (r : PredRequest) : (s.request r).bmode = s.bmode := rfl
@[simp] theorem State.request_wc (s : State) (r : PredRequest) : (s.request r).wc = s.wc := rfl
@[simp] theorem State.request_im (s : State) (r : PredRequest) : (s.request r).im = s.im := rfl
@[simp] theorem State.request_px (s : State) (r : PredRequest) : (s.request r).px = s.px := rfl
@[simp] theorem State.request_seq (s : State) (r : PredRequest) : (s.request r).seq = s.seq := rfl
@[simp] theorem State.request_status (s : State) (r : PredRequest) : (s.request r).status = s.status := rfl
@[simp] theorem State.request_finfo (s : State) (r : PredRequest) : (s.request r).finfo = s.finfo := rfl
@[simp] theorem State.request_cur (s : State) (r : PredRequest) : (s.request r).cur = s.cur := rfl
@[simp] theorem State.request_ctx (s : State) (r : PredRequest) : (s.request r).ctx = s.ctx := rfl
@[simp] theorem State.request_events (s : State) (r : PredRequest) : (s.request r).events = s.events := rfl
@[simp] theorem State.request_rdata (s : State) (r : PredRequest) : (s.request r).rdata = s.rdata := rfl
@[simp] theorem State.request_freeReads (s : State) (r : PredRequest) : (s.request r).freeReads = s.freeReads := rfl
@[simp] theorem State.request_preqs (s : State) (r : PredRequest) : (s.request r).preqs = r :: s.preqs := rfl

/-! ### `State.writeSamples` -/

@[simp] theorem State.writeSamples_cb (s : State) (l : List Host.Cell) : (s.writeSamples l).cb = s.cb := rfl
@[simp] theorem State.writeSamples_hdr (s : State) (l : List Host.Cell) : (s.writeSamples l).hdr = s.hdr := rfl
@[simp] theorem State.writeSamples_bmode (s : State) (l : List Host.Cell) : (s.writeSamples l).bmode = s.bmode := rfl
@[simp] theorem State.writeSamples_wc (s : State) (l : List Host.Cell) : (s.writeSamples l).wc = s.wc := rfl
@[simp] theorem State.writeSamples_im (s : State) (l : List Host.Cell) : (s.writeSamples l).im = s.im := rfl
@[simp] theorem State.writeSamples_px (s : State) (l : List Host.Cell) :
    (s.writeSamples l).px = s.px.writeMany l := rfl
@[simp] theorem State.writeSamples_seq (s : State) (l : List Host.Cell) : (s.writeSamples l).seq = s.seq := rfl
@[simp] theorem State.writeSamples_status (s : State) (l : List Host.Cell) :
    (s.writeSamples l).status = s.status := rfl
@[simp] theorem State.writeSamples_finfo (s : State) (l : List Host.Cell) : (s.writeSamples l).finfo = s.finfo := rfl
@[simp] theorem State.writeSamples_cur (s : State) (l : List Host.Cell) : (s.writeSamples l).cur = s.cur := rfl
@[simp] theorem State.writeSamples_ctx (s : State) (l : List Host.Cell) : (s.writeSamples l).ctx = s.ctx := rfl
@[simp] theorem State.writeSamples_events (s : State) (l : List Host.Cell) :
    (s.writeSamples l).events = s.events := rfl
@[simp] theorem State.writeSamples_rdata (s : State) (l : List Host.Cell) : (s.writeSamples l).rdata = s.rdata := rfl
@[simp] theorem State.writeSamples_freeReads (s : State) (l : List Host.Cell) :
    (s.writeSamples l).freeReads = s.freeReads := rfl
@[simp] theorem State.writeSamples_preqs (s : State) (l : List Host.Cell) : (s.writeSamples l).preqs = s.preqs := rfl

/-! ### `State.changeCtx` -/

@[simp] theorem State.changeCtx_cb (s : State) (c : Nat) : (s.changeCtx c).cb = s.cb := rfl
@[simp] theorem State.changeCtx_hdr (s : State) (c : Nat) : (s.changeCtx c).hdr = s.hdr := rfl
@[simp] theorem State.changeCtx_bmode (s : State) (c : Nat) : (s.changeCtx c).bmode = s.bmode := rfl
@[simp] theorem State.changeCtx_wc (s : State) (c : Nat) : (s.changeCtx c).wc = s.wc := rfl
@[simp] theorem State.changeCtx_im (s : State) (c : Nat) : (s.changeCtx c).im = s.im := rfl
@[simp] theorem State.changeCtx_px (s : State) (c : Nat) : (s.changeCtx c).px = s.px := rfl
@[simp] theorem State.changeCtx_seq (s : State) (c : Nat) : (s.changeCtx c).seq = s.seq := rfl
@[simp] theorem State.changeCtx_status (s : State) (c : Nat) : (s.changeCtx c).status = s.status := rfl
@[simp] theorem State.changeCtx_finfo (s : State) (c : Nat) : (s.changeCtx c).finfo = s.finfo := rfl
@[simp] theorem State.changeCtx_cur (s : State) (c : Nat) : (s.changeCtx c).cur = s.cur := rfl
@[simp] theorem State.changeCtx_ctx (s : State) (c : Nat) :
    (s.changeCtx c).ctx = if s.status.busy then s.ctx else c := rfl
@[simp] theorem State.changeCtx_events (s : State) (c : Nat) : (s.changeCtx c).events = s.events := rfl
@[simp] theorem State.changeCtx_rdata (s : State) (c : Nat) : (s.changeCtx c).rdata = s.rdata := rfl
@[simp] theorem State.changeCtx_freeReads (s : State) (c : Nat) : (s.changeCtx c).freeReads = s.freeReads := rfl
@[simp] theorem State.changeCtx_preqs (s : State) (c : Nat) : (s.changeCtx c).preqs = s.preqs := rfl

/-! ### `State.clearOnAccept` -/

@[simp] theorem State.clearOnAccept_cb (s : State) : s.clearOnAccept.cb = s.cb := rfl
@[simp] theorem State.clearOnAccept_hdr (s : State) : s.clearOnAccept.hdr = s.hdr := rfl
@[simp] theorem State.clearOnAccept_bmode (s : State) : s.clearOnAccept.bmode = s.bmode := rfl
@[simp] theorem State.clearOnAccept_wc (s : State) : s.clearOnAccept.wc = s.wc := rfl
@[simp] theorem State.clearOnAccept_im (s : State) : s.clearOnAccept.im = s.im := rfl
@[simp] theorem State.clearOnAccept_px (s : State) : s.clearOnAccept.px = s.px := rfl
@[simp] theorem State.clearOnAccept_seq (s : State) : s.clearOnAccept.seq = s.seq := rfl
@[simp] theorem State.clearOnAccept_status (s : State) :
    s.clearOnAccept.status = { s.status with done := false, dcovf := false } := rfl
@[simp] theorem State.clearOnAccept_finfo (s : State) : s.clearOnAccept.finfo = s.finfo := rfl
@[simp] theorem State.clearOnAccept_cur (s : State) : s.clearOnAccept.cur = s.cur := rfl
@[simp] theorem State.clearOnAccept_ctx (s : State) : s.clearOnAccept.ctx = s.ctx := rfl
@[simp] theorem State.clearOnAccept_events (s : State) : s.clearOnAccept.events = s.events := rfl
@[simp] theorem State.clearOnAccept_rdata (s : State) : s.clearOnAccept.rdata = s.rdata := rfl
@[simp] theorem State.clearOnAccept_freeReads (s : State) : s.clearOnAccept.freeReads = s.freeReads := rfl
@[simp] theorem State.clearOnAccept_preqs (s : State) : s.clearOnAccept.preqs = s.preqs := rfl

/-! ### `State.start` -/

@[simp] theorem State.start_cb (s : State) (q : Sequencer) : (s.start q).cb = s.cb := rfl
@[simp] theorem State.start_hdr (s : State) (q : Sequencer) : (s.start q).hdr = s.hdr := rfl
@[simp] theorem State.start_bmode (s : State) (q : Sequencer) : (s.start q).bmode = s.bmode := rfl
@[simp] theorem State.start_wc (s : State) (q : Sequencer) : (s.start q).wc = s.wc := rfl
@[simp] theorem State.start_im (s : State) (q : Sequencer) : (s.start q).im = s.im := rfl
@[simp] theorem State.start_px (s : State) (q : Sequencer) : (s.start q).px = s.px := rfl
@[simp] theorem State.start_seq (s : State) (q : Sequencer) : (s.start q).seq = q := rfl
@[simp] theorem State.start_status (s : State) (q : Sequencer) :
    (s.start q).status = { s.status with busy := true } := rfl
@[simp] theorem State.start_finfo (s : State) (q : Sequencer) : (s.start q).finfo = s.finfo := rfl
@[simp] theorem State.start_cur (s : State) (q : Sequencer) : (s.start q).cur = s.cur := rfl
@[simp] theorem State.start_ctx (s : State) (q : Sequencer) : (s.start q).ctx = s.ctx := rfl
@[simp] theorem State.start_events (s : State) (q : Sequencer) : (s.start q).events = s.events := rfl
@[simp] theorem State.start_rdata (s : State) (q : Sequencer) : (s.start q).rdata = s.rdata := rfl
@[simp] theorem State.start_freeReads (s : State) (q : Sequencer) : (s.start q).freeReads = s.freeReads := rfl
@[simp] theorem State.start_preqs (s : State) (q : Sequencer) : (s.start q).preqs = s.preqs := rfl

/-! ### `State.startDirect` -/

@[simp] theorem State.startDirect_cb (s : State) (w : Word) : (s.startDirect w).cb = s.cb := rfl
@[simp] theorem State.startDirect_hdr (s : State) (w : Word) : (s.startDirect w).hdr = s.hdr := rfl
@[simp] theorem State.startDirect_bmode (s : State) (w : Word) : (s.startDirect w).bmode = s.bmode := rfl
@[simp] theorem State.startDirect_wc (s : State) (w : Word) : (s.startDirect w).wc = s.wc := rfl
@[simp] theorem State.startDirect_im (s : State) (w : Word) : (s.startDirect w).im = s.im := rfl
@[simp] theorem State.startDirect_px (s : State) (w : Word) : (s.startDirect w).px = s.px := rfl
@[simp] theorem State.startDirect_seq (s : State) (w : Word) :
    (s.startDirect w).seq = { ph := .direct, n := 0#4 } := rfl
@[simp] theorem State.startDirect_status (s : State) (w : Word) :
    (s.startDirect w).status = { s.status with busy := true } := rfl
@[simp] theorem State.startDirect_finfo (s : State) (w : Word) : (s.startDirect w).finfo = s.finfo := rfl
@[simp] theorem State.startDirect_cur (s : State) (w : Word) : (s.startDirect w).cur = w := rfl
@[simp] theorem State.startDirect_ctx (s : State) (w : Word) : (s.startDirect w).ctx = s.ctx := rfl
@[simp] theorem State.startDirect_events (s : State) (w : Word) : (s.startDirect w).events = s.events := rfl
@[simp] theorem State.startDirect_rdata (s : State) (w : Word) : (s.startDirect w).rdata = s.rdata := rfl
@[simp] theorem State.startDirect_freeReads (s : State) (w : Word) : (s.startDirect w).freeReads = s.freeReads := rfl
@[simp] theorem State.startDirect_preqs (s : State) (w : Word) : (s.startDirect w).preqs = s.preqs := rfl

/-! ### `State.whtApply` -/

@[simp] theorem State.whtApply_cb (s : State) : s.whtApply.cb = s.cb := rfl
@[simp] theorem State.whtApply_hdr (s : State) : s.whtApply.hdr = s.hdr := rfl
@[simp] theorem State.whtApply_bmode (s : State) : s.whtApply.bmode = s.bmode := rfl
@[simp] theorem State.whtApply_wc (s : State) :
    s.whtApply.wc = Vector.ofFn fun n => s.wc[n].patch (whtPass2 (whtPass1 s.cb[24].coef))[n] := rfl
@[simp] theorem State.whtApply_im (s : State) : s.whtApply.im = whtPass1 s.cb[24].coef := rfl
@[simp] theorem State.whtApply_px (s : State) : s.whtApply.px = s.px := rfl
@[simp] theorem State.whtApply_seq (s : State) : s.whtApply.seq = s.seq := rfl
@[simp] theorem State.whtApply_status (s : State) :
    s.whtApply.status = s.status.noteDc (whtPass2 (whtPass1 s.cb[24].coef)) := rfl
@[simp] theorem State.whtApply_finfo (s : State) : s.whtApply.finfo = s.finfo := rfl
@[simp] theorem State.whtApply_cur (s : State) : s.whtApply.cur = s.cur := rfl
@[simp] theorem State.whtApply_ctx (s : State) : s.whtApply.ctx = s.ctx := rfl
@[simp] theorem State.whtApply_events (s : State) : s.whtApply.events = s.events := rfl
@[simp] theorem State.whtApply_rdata (s : State) : s.whtApply.rdata = s.rdata := rfl
@[simp] theorem State.whtApply_freeReads (s : State) : s.whtApply.freeReads = s.freeReads := rfl
@[simp] theorem State.whtApply_preqs (s : State) : s.whtApply.preqs = s.preqs := rfl

/-! ### `State.hostRead` -/

@[simp] theorem State.hostRead_cb (s : State) (a : HAddr) : (s.hostRead a).cb = s.cb := rfl
@[simp] theorem State.hostRead_hdr (s : State) (a : HAddr) : (s.hostRead a).hdr = s.hdr := rfl
@[simp] theorem State.hostRead_bmode (s : State) (a : HAddr) : (s.hostRead a).bmode = s.bmode := rfl
@[simp] theorem State.hostRead_wc (s : State) (a : HAddr) : (s.hostRead a).wc = s.wc := rfl
@[simp] theorem State.hostRead_im (s : State) (a : HAddr) : (s.hostRead a).im = s.im := rfl
@[simp] theorem State.hostRead_px (s : State) (a : HAddr) : (s.hostRead a).px = s.px := rfl
@[simp] theorem State.hostRead_seq (s : State) (a : HAddr) : (s.hostRead a).seq = s.seq := rfl
@[simp] theorem State.hostRead_status (s : State) (a : HAddr) : (s.hostRead a).status = s.status := rfl
@[simp] theorem State.hostRead_finfo (s : State) (a : HAddr) : (s.hostRead a).finfo = s.finfo := rfl
@[simp] theorem State.hostRead_cur (s : State) (a : HAddr) : (s.hostRead a).cur = s.cur := rfl
@[simp] theorem State.hostRead_ctx (s : State) (a : HAddr) : (s.hostRead a).ctx = s.ctx := rfl
@[simp] theorem State.hostRead_events (s : State) (a : HAddr) : (s.hostRead a).events = s.events := rfl
@[simp] theorem State.hostRead_rdata (s : State) (a : HAddr) : (s.hostRead a).rdata = s.hostReadValue a := rfl
@[simp] theorem State.hostRead_freeReads (s : State) (a : HAddr) :
    (s.hostRead a).freeReads = if s.readIsFree a then s.freeReads + 1 else s.freeReads := rfl
@[simp] theorem State.hostRead_preqs (s : State) (a : HAddr) : (s.hostRead a).preqs = s.preqs := rfl

/-! ### The vectors a meaning builds -/

@[simp] theorem whtPass1_getElem (blk : Coefs) (n : Nat) (h : n < 16) :
    (whtPass1 blk)[n] = storeIM (whtColumn blk (colOf ⟨n, h⟩) (rowOf ⟨n, h⟩)) := by
  simp [whtPass1]

@[simp] theorem idctPass1_getElem (blk : Coefs) (n : Nat) (h : n < 16) :
    (idctPass1 blk)[n] = storeIM (idctColumn blk (rowOf ⟨n, h⟩) (colOf ⟨n, h⟩)) := by
  simp [idctPass1]

@[simp] theorem WorkBlock.patch_coded (w : WorkBlock) (v : Int) : (w.patch v).coded = w.coded := rfl

@[simp] theorem WorkBlock.patch_tag (w : WorkBlock) (v : Int) : (w.patch v).tag = .yWithoutY2 := rfl

/-- The patched DC slot holds the low 16 bits of the DC value (R80). -/
@[simp] theorem WorkBlock.patch_dc (w : WorkBlock) (v : Int) : (w.patch v).coef[0] = BitVec.ofInt 16 v := by
  simp [WorkBlock.patch]

/-- The patch never touches an AC coefficient (R80, R81). -/
theorem WorkBlock.patch_ac (w : WorkBlock) (v : Int) (n : Nat) (h : n < 16) (h0 : n ≠ 0) :
    (w.patch v).coef[n] = w.coef[n] := by
  simp [WorkBlock.patch, h0.symm]

theorem rowOf_indexAt (r q : Fin 4) : rowOf (indexAt r q) = r := Fin.ext (by simp only [rowOf, indexAt]; omega)

theorem colOf_indexAt (r q : Fin 4) : colOf (indexAt r q) = q := Fin.ext (by simp only [colOf, indexAt]; omega)

end Sys2Proof.Machine
end

