-- ==== Sys2Proof/Laws/Exec.lean ====
section
/-! SUPPORT. For each shared operation one lemma that says all it can do: arithmetic primitives, the `IDCT` operation, the
`WHT`, a core step, a host write, a step. -/

namespace Sys2Proof.Machine

/-! ### Arithmetic -/

theorem asr_three (v : Int) : asr v 3 = v / 8 := rfl

theorem asr_sixteen (v : Int) : asr v 16 = v / 65536 := rfl

theorem clamp255_range (v : Int) : 0 ≤ clamp255 v ∧ clamp255 v ≤ 255 := by
  unfold clamp255; split
  · omega
  · split <;> omega

theorem clampByte_toNat (v : Int) : ((clampByte v).toNat : Int) = clamp255 v := by
  have h := clamp255_range v
  simp only [clampByte, BitVec.toNat_ofInt]
  omega

/-- An intermediate that lies in the `IM_W`-bit range is stored exactly (R78, R88). -/
theorem storeIM_toInt {v : Int} (h1 : -524288 ≤ v) (h2 : v < 524288) : (storeIM v).toInt = v := by
  simp only [storeIM, BitVec.toInt_ofInt, Config.imW]
  rw [Int.bmod_def]
  omega

theorem coefAt_range (blk : Coefs) (i : Fin 16) : -32768 ≤ coefAt blk i ∧ coefAt blk i ≤ 32767 := by
  have h1 := BitVec.le_toInt blk[i]
  have h2 := BitVec.toInt_lt (x := blk[i])
  simp only [coefAt]
  omega

/-! ### The meanings -/

/-- An `IDCT` faults with nothing else done, or accumulates and writes `IM` (R91, R92). -/
theorem State.idctInto_cases (s : State) (word : Word) (op : Coefs × Tag) (p : Plane) (col row : Nat) :
    (op.2 ≠ .yWithoutY2 ∧ op.2 ≠ .uv ∧ s.idctInto word op p col row = s.raiseFault .idctDcNotFinal word) ∨
    ((op.2 = .yWithoutY2 ∨ op.2 = .uv) ∧
      s.idctInto word op p col row =
        { s with
          px := s.px.writeMany (s.accumulated (residual op.1) p col row)
          im := idctPass1 op.1 }) := by
  obtain ⟨blk, tag⟩ := op
  cases tag <;> simp [State.idctInto]

/-- A `WHT` raises the fault of its first failing precondition, or transforms (R76). -/
theorem execWht_cases (s : State) :
    (s.hdr.pb = true ∧ exec .wht s = .next (s.raiseFault .whtNoY2 0x7000#16)) ∨
    (s.hdr.pb = false ∧ s.y2Coded = false ∧ exec .wht s = .next (s.raiseFault .whtUncoded 0x7000#16)) ∨
    (s.hdr.pb = false ∧ s.y2Coded = true ∧ s.copyNotPending = true ∧
      exec .wht s = .next (s.raiseFault .whtDstNotPending 0x7000#16)) ∨
    (s.hdr.pb = false ∧ s.y2Coded = true ∧ s.copyNotPending = false ∧ exec .wht s = .next s.whtApply) := by
  cases h1 : s.hdr.pb <;> cases h2 : s.y2Coded <;> cases h3 : s.copyNotPending <;>
    simp [exec, execWht, encode, h1, h2, h3]

theorem uBlock_eq_some {col row : BitVec 2} (h : inChromaGrid col row = true) :
    uBlock col row = some ⟨16 + 2 * row.toNat + col.toNat, by simp [inChromaGrid] at h; omega⟩ := by
  simp only [inChromaGrid, Bool.and_eq_true, decide_eq_true_eq] at h
  simp [uBlock, h]

theorem vBlock_eq_some {col row : BitVec 2} (h : inChromaGrid col row = true) :
    vBlock col row = some ⟨20 + 2 * row.toNat + col.toNat, by simp [inChromaGrid] at h; omega⟩ := by
  simp only [inChromaGrid, Bool.and_eq_true, decide_eq_true_eq] at h
  simp [vBlock, h]

/-- What a micro-op can do: raise a fault with nothing else changed, or write the raster, `IM`, the working copy, the
record of requests and `DCOVF`, of which `WC` only by `COPYY` and `WHT` and `STATUS` only by `WHT` (R52, R133). -/
theorem exec_next_cases {i : Instr} {s t : State} (hi : i ≠ .runmb) (h : exec i s = .next t) :
    (∃ c w, c ≠ FaultCode.none ∧ t = s.raiseFault c w) ∨
    (t = { s with
        px := t.px, im := t.im, wc := t.wc, preqs := t.preqs
        status := { s.status with dcovf := t.status.dcovf } } ∧
      (i ≠ .copyy → i ≠ .wht → t.wc = s.wc) ∧ (i ≠ .wht → t.status = s.status)) := by
  have idct : ∀ word op p col row, t = s.idctInto word op p col row →
      (∃ c w, c ≠ FaultCode.none ∧ t = s.raiseFault c w) ∨
      (t = { s with
          px := t.px, im := t.im, wc := t.wc, preqs := t.preqs
          status := { s.status with dcovf := t.status.dcovf } } ∧
        (i ≠ .copyy → i ≠ .wht → t.wc = s.wc) ∧ (i ≠ .wht → t.status = s.status)) := by
    intro word op p col row e
    rcases s.idctInto_cases word op p col row with ⟨-, -, h'⟩ | ⟨-, h'⟩
    · exact .inl ⟨_, _, by simp, e.trans h'⟩
    · rw [e, h']; simp
  cases i with
  | runmb => contradiction
  | predc => obtain rfl := Host.Outcome.next.inj h; right; simp [State.writeSamples, State.request]
  | predy => obtain rfl := Host.Outcome.next.inj h; right; simp [State.writeSamples, State.request]
  | predb col row => obtain rfl := Host.Outcome.next.inj h; right; simp [State.writeSamples, State.request]
  | idctY col row => exact idct _ _ _ _ _ (Host.Outcome.next.inj h).symm
  | idctW col row => exact idct _ _ _ _ _ (Host.Outcome.next.inj h).symm
  | idctU col row =>
    simp only [exec, execIdctU] at h
    split at h
    · exact idct _ _ _ _ _ (Host.Outcome.next.inj h).symm
    · cases h
  | idctV col row =>
    simp only [exec, execIdctV] at h
    split at h
    · exact idct _ _ _ _ _ (Host.Outcome.next.inj h).symm
    · cases h
  | copyy => obtain rfl := Host.Outcome.next.inj h; right; simp
  | wht =>
    rcases execWht_cases s with ⟨-, e⟩ | ⟨-, -, e⟩ | ⟨-, -, -, e⟩ | ⟨-, -, -, e⟩ <;> rw [e] at h <;>
      obtain rfl := Host.Outcome.next.inj h
    · exact .inl ⟨_, _, by simp, rfl⟩
    · exact .inl ⟨_, _, by simp, rfl⟩
    · exact .inl ⟨_, _, by simp, rfl⟩
    · right; simp [State.whtApply, Status.noteDc]

/-- An `IDCT` whose target lies in the raster keeps the canonical form of the memory. -/
theorem State.idctInto_wf (s : State) (word : Word) (op : Coefs × Tag) (p : Plane) (col row : Nat) (hw : s.px.wf = true)
    (hr : ∀ j, Memory.firstAddr ≤ blockAddr p col row j ∧ blockAddr p col row j < Memory.endAddr) :
    (s.idctInto word op p col row).px.wf = true := by
  rcases s.idctInto_cases word op p col row with ⟨-, -, e⟩ | ⟨-, e⟩
  · rw [e]; exact hw
  · rw [e]
    dsimp only
    refine Memory.writeMany_wf hw fun c hc => ?_
    obtain ⟨j, rfl⟩ := mem_blockCells.mp hc
    exact hr j

/-- Every meaning keeps the canonical form of the raster memory. -/
theorem exec_wf {i : Instr} {s t : State} (h : exec i s = .next t) (hw : s.px.wf = true) : t.px.wf = true := by
  cases i with
  | runmb => obtain rfl := Host.Outcome.next.inj h; exact hw
  | predc =>
    obtain rfl := Host.Outcome.next.inj h
    simp only [State.writeSamples_px, State.request_px]
    refine Memory.writeMany_wf hw fun c hc => ?_
    rcases List.mem_append.mp hc with hc | hc <;> obtain ⟨j, rfl⟩ := mem_planeCells.mp hc <;>
      simp only [planeBase, Memory.firstAddr, Memory.endAddr] <;> omega
  | predy =>
    obtain rfl := Host.Outcome.next.inj h
    simp only [State.writeSamples_px, State.request_px]
    refine Memory.writeMany_wf hw fun c hc => ?_
    obtain ⟨j, rfl⟩ := mem_planeCells.mp hc
    simp only [planeBase, Memory.firstAddr, Memory.endAddr]; omega
  | predb col row =>
    obtain rfl := Host.Outcome.next.inj h
    simp only [State.writeSamples_px, State.request_px]
    refine Memory.writeMany_wf hw fun c hc => ?_
    obtain ⟨j, rfl⟩ := mem_blockCells.mp hc
    exact blockAddr_y_range col.isLt row.isLt j
  | idctY col row =>
    obtain rfl := Host.Outcome.next.inj h
    exact s.idctInto_wf _ _ _ _ _ hw (blockAddr_y_range col.isLt row.isLt)
  | idctW col row =>
    obtain rfl := Host.Outcome.next.inj h
    exact s.idctInto_wf _ _ _ _ _ hw (blockAddr_y_range col.isLt row.isLt)
  | idctU col row =>
    simp only [exec, execIdctU, uBlock] at h
    split at h
    · rename_i hb
      split at hb
      · rename_i hg
        obtain rfl := Host.Outcome.next.inj h
        exact s.idctInto_wf _ _ _ _ _ hw (blockAddr_u_range hg.1 hg.2)
      · cases hb
    · cases h
  | idctV col row =>
    simp only [exec, execIdctV, vBlock] at h
    split at h
    · rename_i hb
      split at hb
      · rename_i hg
        obtain rfl := Host.Outcome.next.inj h
        exact s.idctInto_wf _ _ _ _ _ hw (blockAddr_v_range hg.1 hg.2)
      · cases hb
    · cases h
  | copyy => obtain rfl := Host.Outcome.next.inj h; exact hw
  | wht =>
    rcases execWht_cases s with ⟨-, e⟩ | ⟨-, -, e⟩ | ⟨-, -, -, e⟩ | ⟨-, -, -, e⟩ <;> rw [e] at h <;>
      obtain rfl := Host.Outcome.next.inj h <;> exact hw

/-- A reset's memory is canonical, whatever the samples come up with. -/
theorem State.resetCore_wf (s : State) (p : PowerUp) : (s.resetCore p).px.wf = true := by
  refine Memory.ofBytes_wfFrom ?_
  simp [Memory.firstAddr, Memory.endAddr]

/-- The model's reset state is the reset whose stores come up zero. -/
theorem reset_eq_resetCore_zero : State.reset = State.reset.resetCore PowerUp.zero := by
  have hpx : Memory.ofBytes Memory.firstAddr PowerUp.zero.px.toList = [] := by
    have hl : PowerUp.zero.px.toList = List.replicate 384 Memory.unlisted := Vector.toList_replicate
    rw [hl, Memory.ofBytes_replicate]
  have hcb : State.reset.cb = Vector.ofFn fun b => { coef := PowerUp.zero.cbCoef[b], coded := false } := by
    ext1 b hb; simp [State.reset, PowerUp.zero]
  have hwc : State.reset.wc =
      Vector.ofFn fun k => { coef := PowerUp.zero.wcCoef[k], coded := false, tag := .yWithY2 } := by
    ext1 b hb; simp [State.reset, PowerUp.zero]
  simp only [State.resetCore, hpx, ← hcb, ← hwc]
  rfl

/-! ### Steps -/

/-- What a core step can do (R107): nothing when the core is not running, a move that dispatches nothing, a micro-op
whose fault is left as it stands, or a micro-op and the sequencer's move. -/
theorem coreStep_next {s t : State} (h : coreStep s = .next t) :
    (s.isRunning = false ∧ t = s) ∨
    (s.isRunning = true ∧ s.seqAction = some .skip ∧ t = s.advance s.seqTarget) ∨
    (s.isRunning = true ∧ ∃ i u, s.seqAction = some (.run i) ∧ exec i s = .next u ∧
      t = if u.status.fault then u else u.advance s.seqTarget) := by
  unfold coreStep at h
  split at h
  · rename_i hr
    split at h
    · rename_i i ha
      unfold afterMicroOp at h
      split at h
      · rename_i u hu
        exact .inr (.inr ⟨hr, i, u, ha, hu, (Host.Outcome.next.inj h).symm⟩)
      · cases h
      · cases h
    · rename_i ha
      exact .inr (.inl ⟨hr, ha, (Host.Outcome.next.inj h).symm⟩)
    · cases h
  · rename_i hr
    exact .inl ⟨by simpa using hr, (Host.Outcome.next.inj h).symm⟩

/-- The move of the sequencer changes `SEQ` and, at the end of a command, `BUSY` and `DONE` (R121). -/
theorem State.advance_eq (s : State) (o : Option Sequencer) :
    s.advance o = { s with seq := (s.advance o).seq, status := (s.advance o).status } := by
  cases o <;> rfl

/-- What acceptance can do (R106): fault on an illegal word, start the sequencer, or latch a micro-op. -/
theorem State.accept_cases (s : State) (w : Word) :
    ((∃ e, decode w = .error e) ∧ s.accept w = .next (s.clearOnAccept.raiseFault .illegalCmd w)) ∨
    (decode w = .ok .runmb ∧ s.accept w = .next (s.clearOnAccept.start { ph := .cPred, n := 0#4 })) ∨
    (isMicroOpWord w = true ∧ s.accept w = .next (s.clearOnAccept.startDirect w)) := by
  unfold State.accept isMicroOpWord
  cases hd : decode w with
  | error e => exact .inl ⟨⟨e, rfl⟩, rfl⟩
  | ok i => cases i <;> simp [exec, execRunmb]

/-- What a host write can do (R48). -/
theorem State.hostWrite_cases (s : State) (a : HAddr) (v : Word) :
    (s.status.fault = true ∧ s.hostWrite a v = .next s) ∨
    (s.status.fault = false ∧ s.status.busy = true ∧
      s.hostWrite a v = .next (s.raiseFault .hostWriteBusy (a.setWidth 16))) ∨
    (s.isIdle = true ∧ hostReg a = .cmd ∧ s.hostWrite a v = s.accept v) ∨
    (s.isIdle = true ∧ hostReg a ≠ .cmd ∧ s.hostWrite a v = .next (s.writeReg v (hostReg a))) := by
  cases h1 : s.status.fault <;> cases h2 : s.status.busy <;> by_cases h3 : hostReg a = .cmd <;>
    simp [State.hostWrite, State.isIdle, h1, h2, h3]

/-- A change of context reaches the predictor exactly when no run is in progress (R98 (c), R157). -/
theorem State.changeCtx_cases (s : State) (c : Nat) :
    (s.status.busy = true ∧ s.changeCtx c = s) ∨ (s.status.busy = false ∧ s.changeCtx c = { s with ctx := c }) := by
  cases h : s.status.busy <;> simp [State.changeCtx, h]

/-- What a step does, by the event that is next. -/
theorem step_cases (s : State) :
    (s.events = [] ∧ step s = coreStep s) ∨
    (∃ rest, s.events = .coreStep :: rest ∧ step s = coreStep { s with events := rest }) ∨
    (∃ a rest, s.events = .hostRead a :: rest ∧ step s = .next (({ s with events := rest } : State).hostRead a)) ∨
    (∃ a v rest, s.events = .hostWrite a v :: rest ∧ step s = ({ s with events := rest } : State).hostWrite a v) ∨
    (∃ p rest, s.events = .reset p :: rest ∧ step s = .next (({ s with events := rest } : State).resetCore p)) ∨
    (∃ c rest, s.events = .ctxChange c :: rest ∧ step s = .next (({ s with events := rest } : State).changeCtx c)) := by
  unfold step
  cases s.events with
  | nil => simp
  | cons e rest => cases e <;> simp

end Sys2Proof.Machine
end

