-- ==== Sys2Proof/Laws/PerInstr.lean ====
section
/-! SUPPORT. Facts about each command as a term: its word lies in its row of spec/opcode_table.json. -/

/-- The word of a well-formed command matches the command's own row of the opcode table (R60, R61, R63). -/
def Sys2Proof.Laws.WordInRow.Statement (i : Sys2Proof.Instr) : Prop :=
  i.wellFormed = true → Sys2Proof.encode i &&& Sys2Proof.tableMask i = Sys2Proof.tableMatch i

theorem Sys2Proof.Laws.WordInRow.runmb : Sys2Proof.Laws.WordInRow.Statement .runmb := by
  unfold Sys2Proof.Laws.WordInRow.Statement; decide

theorem Sys2Proof.Laws.WordInRow.predc : Sys2Proof.Laws.WordInRow.Statement .predc := by
  unfold Sys2Proof.Laws.WordInRow.Statement; decide

theorem Sys2Proof.Laws.WordInRow.predy : Sys2Proof.Laws.WordInRow.Statement .predy := by
  unfold Sys2Proof.Laws.WordInRow.Statement; decide

theorem Sys2Proof.Laws.WordInRow.predb (col row : BitVec 2) : Sys2Proof.Laws.WordInRow.Statement (.predb col row) := by
  unfold Sys2Proof.Laws.WordInRow.Statement; revert col row; decide

theorem Sys2Proof.Laws.WordInRow.idctY (col row : BitVec 2) : Sys2Proof.Laws.WordInRow.Statement (.idctY col row) := by
  unfold Sys2Proof.Laws.WordInRow.Statement; revert col row; decide

theorem Sys2Proof.Laws.WordInRow.idctU (col row : BitVec 2) : Sys2Proof.Laws.WordInRow.Statement (.idctU col row) := by
  unfold Sys2Proof.Laws.WordInRow.Statement; revert col row; decide

theorem Sys2Proof.Laws.WordInRow.idctV (col row : BitVec 2) : Sys2Proof.Laws.WordInRow.Statement (.idctV col row) := by
  unfold Sys2Proof.Laws.WordInRow.Statement; revert col row; decide

theorem Sys2Proof.Laws.WordInRow.idctW (col row : BitVec 2) : Sys2Proof.Laws.WordInRow.Statement (.idctW col row) := by
  unfold Sys2Proof.Laws.WordInRow.Statement; revert col row; decide

theorem Sys2Proof.Laws.WordInRow.copyy : Sys2Proof.Laws.WordInRow.Statement .copyy := by
  unfold Sys2Proof.Laws.WordInRow.Statement; decide

theorem Sys2Proof.Laws.WordInRow.wht : Sys2Proof.Laws.WordInRow.Statement .wht := by
  unfold Sys2Proof.Laws.WordInRow.Statement; decide
end

