-- ==== Sys2Proof/Tests/Slice0.lean ====
section
/-! SUPPORT. Small checks of the model against values the spec writes out, and for each statement with hypotheses a
concrete state and operands that meet them. -/

namespace Sys2Proof.Tests

open Sys2Proof Sys2Proof.Machine

/-! ### Helpers: small states -/

/-- A block from a list of coefficients, zero after its end. -/
def coefs (l : List Int) : Coefs := Vector.ofFn fun j => BitVec.ofInt 16 (l.getD j.val 0)

/-- A state with one block of `CB` loaded. -/
def load (s : State) (b : Fin 25) (l : List Int) (coded : Bool) : State :=
  { s with cb := s.cb.set b { coef := coefs l, coded := coded } }

/-- A state with one sample written. -/
def put (s : State) (p : Plane) (x y : Nat) (v : Byte) : State := { s with px := s.px.write (sampleAddr p x y) v }

/-- A state with the header bits set. -/
def header (s : State) (pb hnz : Bool) : State := { s with hdr := { pb := pb, hnz := hnz, ymode := 1#4, cmode := 2#4 } }

/-- A busy state at a place of the sequencer. -/
def busyAt (s : State) (ph : Phase) (n : BitVec 4) : State :=
  { s with status := { s.status with busy := true }, seq := { ph := ph, n := n } }

/-- A state whose 16 working-copy tags are all one value. -/
def tags (s : State) (g : CopyTag) : State :=
  { s with wc := Vector.replicate 16 { coef := Coefs.zero, coded := false, tag := g } }

/-- The reset state with a coded Y2 block. -/
def y2State : State := load State.reset 24 [64] true

/-- A faulted state. -/
def faulted : State := State.reset.raiseFault .illegalCmd 0x5030#16

/-- What a result shows of its next state. -/
def look {α : Type} (r : Result) (f : State → α) : Option α :=
  match r with
  | .next t => some (f t)
  | .fault _ => none
  | .refused _ => none

/-! ### Decoding (30_encoding.md R61 to R63: OPC ZZZZZ SRC PLANE ROW COL) -/

theorem test_decode_runmb : decode 0b0001000000000000#16 = .ok .runmb := by decide
theorem test_decode_predc : decode 0b0010000000000000#16 = .ok .predc := by decide
theorem test_decode_predy : decode 0b0011000000000000#16 = .ok .predy := by decide
theorem test_decode_predb : decode 0b0100000000001011#16 = .ok (.predb 3#2 2#2) := by decide
theorem test_decode_idctY : decode 0b0101000000001001#16 = .ok (.idctY 1#2 2#2) := by decide
theorem test_decode_idctU : decode 0b0101000000010001#16 = .ok (.idctU 1#2 0#2) := by decide
theorem test_decode_idctV : decode 0b0101000000100100#16 = .ok (.idctV 0#2 1#2) := by decide
theorem test_decode_idctW : decode 0b0101000001001111#16 = .ok (.idctW 3#2 3#2) := by decide
theorem test_decode_copyy : decode 0b0110000000000000#16 = .ok .copyy := by decide
theorem test_decode_wht : decode 0b0111000000000000#16 = .ok .wht := by decide

/-- V38, one word for each ground of rejection. -/
theorem test_decode_rejects :
    decode 0x0000#16 = .error .illegalOpcode ∧ decode 0xFFFF#16 = .error .illegalOpcode ∧
    decode 0x5080#16 = .error .reservedBits ∧ decode 0x1001#16 = .error .operandBits ∧
    decode 0x4010#16 = .error .predbBits ∧ decode 0x5030#16 = .error .illegalPlane ∧
    decode 0x5012#16 = .error .chromaPosition ∧ decode 0x5018#16 = .error .chromaPosition ∧
    decode 0x5050#16 = .error .sourcePlane := by decide

theorem test_decodeTableWord : decodeTableWord 16 0x5025 = some (.idctV 1#2 1#2) ∧ decodeTableWord 16 0x5030 = none := by
  decide

/-! ### Well-formedness: an ill-formed term for each check -/

theorem test_illFormed_u_column : (Instr.idctU 2#2 0#2).wellFormed = false := by decide
theorem test_illFormed_u_row : (Instr.idctU 0#2 2#2).wellFormed = false := by decide
theorem test_illFormed_v_column : (Instr.idctV 3#2 1#2).wellFormed = false := by decide
theorem test_illFormed_v_row : (Instr.idctV 1#2 3#2).wellFormed = false := by decide

/-! ### The host's two questions on a word -/

/-- After reset the first step runs the word: `RUNMB` stands at `(C_PRED, 0)` busy, `COPYY` has ended with `DONE`. -/
theorem test_fetch_runs :
    look (step (State.reset.withFetchWord 16 0x1000)) (fun t => (t.status.word, t.seq.word)) = some (0x0001#16, 0x0010#16) ∧
    look (step (State.reset.withFetchWord 16 0x6000)) (fun t => (t.status.word, t.seq.word)) = some (0x0002#16, 0#16) ∧
    look (step (State.reset.withFetchWord 16 0x2000)) (fun t => (t.status.word, t.seq.word)) = some (0x0002#16, 0#16) := by
  decide

/-! ### Each command, one step on a small state -/

/-- V42: acceptance of `RUNMB` leaves `SEQ` = 0x10 and `BUSY`. -/
theorem test_runmb : look (State.reset.hostWrite 0x000#11 0x1000#16) (fun t => (t.status.word, t.seq.word)) =
    some (0x0001#16, 0x0010#16) := by decide

/-- P3: the `CHROMA` request carries `HDR.CMODE`. -/
theorem test_predc : look (exec .predc (header State.reset true true)) (fun t => t.preqs.map fun r => (r.kind.code, r.mode)) =
    some [(0#2, 2#4)] := by decide

/-- R102: the `LUMA_MB` request carries `HDR.YMODE`, `PB` unchecked. -/
theorem test_predy : look (exec .predy (header State.reset true true)) (fun t => t.preqs.map fun r => (r.kind.code, r.mode)) =
    some [(1#2, 1#4)] := by decide

/-- R23, R103: `PREDB 3, 2` carries `BMODE[11]`, here the top nibble of `BMODE2`. -/
theorem test_predb : look (State.reset.hostWrite 0x00A#11 0x1098#16) (fun s =>
      look (exec (.predb 3#2 2#2) s) fun t => t.preqs.map fun r => (r.kind.code, r.mode, r.col, r.row)) =
    some (some [(2#2, 1#4, 3#2, 2#2)]) := by decide

/-- V27, `c[1] = 100`: the residual varies along the columns, 16, 7, -7, -16; V34: 0x5009 targets rows 8.., columns
4... -/
theorem test_idctY_orientation : look (exec (.idctY 1#2 2#2) (load State.reset 9 [0, 100] true))
    (fun t => ((t.memRead .y 4 8).toNat, (t.memRead .y 5 8).toNat, (t.memRead .y 4 11).toNat, (t.memRead .y 6 8).toNat)) =
    some (16, 7, 16, 0) := by decide

/-- V35: `IDCT.Y 1, 1` faults when the Y2 block is coded: `STATUS` = 0x0024, `FINFO` = 0x5005. -/
theorem test_idctY_pending : look (exec (.idctY 1#2 1#2) y2State) (fun t => (t.status.word, t.finfo)) =
    some (0x0024#16, 0x5005#16) := by decide

/-- P1: sample 250 with a DC-only block of 64 becomes 255, sample 3 becomes 11. -/
theorem test_idctU_saturates :
    look (exec (.idctU 1#2 0#2) (put (put (load State.reset 17 [64] false) .u 4 0 250#8) .u 4 1 3#8))
      (fun t => ((t.memRead .u 4 0).toNat, (t.memRead .u 4 1).toNat)) = some (255, 11) := by decide

/-- V34: 0x5025 adds `CB[23]` to `PX.V[4..7][4..7]`; V27, `c[4] = 100`: the residual varies along the rows. -/
theorem test_idctV : look (exec (.idctV 1#2 1#2) (load State.reset 23 [0, 0, 0, 0, 100] false))
    (fun t => ((t.memRead .v 4 4).toNat, (t.memRead .v 7 4).toNat, (t.memRead .v 4 5).toNat, (t.memRead .v 3 4).toNat)) =
    some (16, 16, 7, 0) := by decide

/-- V35: after reset `IDCT.W 0, 0` faults with `FINFO` = 0x5040. -/
theorem test_idctW_pending : look (exec (.idctW 0#2 0#2) State.reset) (fun t => (t.status.word, t.finfo)) =
    some (0x0024#16, 0x5040#16) := by decide

/-- V34: 0x5046 adds `WC[6]` to `PX.Y[4..7][8..11]`; P2: the block `[8, 100, 0, ..]` gives 17, 8. -/
theorem test_idctW : look (exec (.idctW 2#2 1#2) { tags State.reset .yWithoutY2 with
      wc := (tags State.reset .yWithoutY2).wc.set 6 { coef := coefs [8, 100], coded := false, tag := .yWithoutY2 } })
    (fun t => ((t.memRead .y 8 4).toNat, (t.memRead .y 9 4).toNat, (t.memRead .y 7 4).toNat)) = some (17, 8, 0) := by decide

/-- V23: `COPYY` copies the block, its flag and the pending tag. -/
theorem test_copyy : look (exec .copyy (load y2State 7 [-300, 5] true))
    (fun t => (t.wc[7].coef, t.wc[7].coded, t.wc[7].tag, t.wpend)) =
    some (coefs [-300, 5], true, .yWithY2, 0xFFFF#16) := by decide

/-- V20, V23: the DC of `WC[7]` becomes 23, all tags final. -/
theorem test_wht : look (exec .wht (load State.reset 24 [100, -20, 30, 4, 5, -6, 7, 8, -9, 10, 11, -12, 13, 14, -15, 16] true))
    (fun t => (t.wc[7].coef[0], t.wc[4].coef[0], t.wpend, t.status.dcovf)) = some (23#16, 12#16, 0#16, false) := by decide

/-- V21: 16 inputs of 16384 give 32768, stored as 0x8000 with `DCOVF`. -/
theorem test_wht_overflow : look (exec .wht (load State.reset 24 (List.replicate 16 16384) true))
    (fun t => (t.wc[0].coef[0], t.wc[1].coef[0], t.status.dcovf)) = some (0x8000#16, 0#16, true) := by decide

/-! ### Arithmetic and the host bus, from the spec's tables -/

/-- V8 to V13. -/
theorem test_primitives : asr (-9) 3 = -2 ∧ asr (-65537) 16 = -2 ∧ wrapTo 16 65534 = -2 ∧ wrapTo 20 524288 = -524288 ∧
    clamp255 (-1) = 0 ∧ clamp255 256 = 255 ∧ mulA (-4) = -6 ∧ mulB (-32768) = -17734 := by decide

/-- V29, V31: a general block, and the extreme residual that 32-bit products get wrong. -/
theorem test_residual :
    (residual (coefs [200, -50, 30, 4, 5, -6, 7, 8, -9, 10, 11, -12, 13, 14, -15, 16])).toList =
      [25, 16, 25, 37, 16, 14, 25, 43, 23, 21, 36, 32, 19, 19, 16, 36] ∧
    (residual (coefs (List.replicate 16 (-32768))))[0] = -60643 := by decide

/-- V39: reads after reset, and reserved bits of `HDR`. -/
theorem test_host_reads : State.reset.hostReadValue 0x005#11 = 0xA1FA#16 ∧ State.reset.hostReadValue 0x012#11 = 0xFFFF#16 ∧
    State.reset.hostReadValue 0x006#11 = 0#16 ∧
    look (State.reset.hostWrite 0x002#11 0xFFFF#16) (fun t => t.hostReadValue 0x002#11) = some 0x0FF3#16 ∧
    look (State.reset.hostWrite 0x600#11 0x1234#16) (fun t => t.hostReadValue 0x600#11) = some 0x0034#16 := by decide

/-- P5: an illegal word, then writes that the fault state ignores. -/
theorem test_illegal_word : look (State.reset.hostWrite 0x000#11 0x5030#16)
    (fun t => (t.status.word, t.finfo, t.seq.word, look (t.hostWrite 0x002#11 2#16) fun u => u.hdr.word)) =
    some (0x0014#16, 0x5030#16, 0x00F0#16, some 0#16) := by decide

/-- R98 (c), R157: the context changes between runs and not during one. -/
theorem test_ctx_change :
    look (step { State.reset with events := [.ctxChange 7] }) (fun t => t.ctx) = some 7 ∧
    look (step { busyAt State.reset .cPred 0#4 with events := [.ctxChange 7] }) (fun t => (t.ctx, t.seq.word)) =
      some (0, 0x0010#16) := by decide

/-- P5: a host write while busy at `(B_PRED, 5)`. -/
theorem test_write_while_busy :
    look ((busyAt (header State.reset true false) .bPred 5#4).hostWrite 0x200#11 5#16)
      (fun t => (t.status.word, t.finfo, t.seq.word)) = some (0x0064#16, 0x0200#16, 0x00F5#16) := by decide

/-! ### Witnesses: for each statement with hypotheses, a state and operands that meet them -/

theorem witness_IllegalWordsAreRejected : State.reset.isIdle = true ∧ (0x5030#16 : Word) ∉ legalWords := by decide

theorem witness_DecodeOfEncode : (Instr.idctU 1#2 1#2).wellFormed = true ∧ (Instr.predb 3#2 3#2).wellFormed = true := by
  decide

theorem witness_EncodeOfDecode : decode 0x5025#16 = .ok (.idctV 1#2 1#2) := by decide

theorem witness_OpcodeTableIsTheDecoder : decode 0x5015#16 = .ok (.idctU 1#2 1#2) := by decide

theorem witness_ShiftAndWrap : 1 ≤ 16 ∧ (-2 ^ (16 - 1) : Int) ≤ -1 ∧ (-1 : Int) ≤ 2 ^ (16 - 1) - 1 ∧
    ((65535 : Int) - -1) % 2 ^ 16 = 0 := by decide

theorem witness_ClampSaturates : (-1 : Int) < 0 ∧ (255 : Int) < 256 ∧ (0 : Int) ≤ 255 ∧ (255 : Int) ≤ 255 := by decide

theorem witness_MultiplyHelpers : (-4 : Int) ≤ -1 := by decide

theorem witness_SmallInputsFitTheDcSlot :
    (∀ n : Fin 16, (coefAt (coefs (List.replicate 16 16383)) n).natAbs ≤ 16383) ∧
    ((List.finRange 16).map fun n => (coefAt (coefs [32767, -32768]) n).natAbs).sum ≤ 262133 := by decide

theorem witness_PredcResult : State.reset.px.wf = true := by decide

theorem witness_PredyResult : (put State.reset .y 15 15 7#8).px.wf = true := by decide

theorem witness_PredbResult : (11 : Fin 16).val = 4 * (2#2).toNat + (3#2).toNat ∧ State.reset.px.wf = true := by decide

theorem witness_CopyyResult_pending : y2State.hdr.pb = false ∧ y2State.cb[24].coded = true := by decide

theorem witness_CopyyResult_final : ¬(State.reset.hdr.pb = false ∧ State.reset.cb[24].coded = true) := by decide

theorem witness_WhtResult : y2State.hdr.pb = false ∧ y2State.cb[24].coded = true ∧
    (∀ k : Fin 16, y2State.wc[k].tag = .yWithY2) := by decide

theorem witness_WhtFaultOrder_noY2 : (header y2State true true).hdr.pb = true := by decide

theorem witness_WhtFaultOrder_uncoded : State.reset.hdr.pb = false ∧ State.reset.cb[24].coded = false := by decide

theorem witness_WhtFaultOrder_notPending : (tags y2State .yWithoutY2).hdr.pb = false ∧
    (tags y2State .yWithoutY2).cb[24].coded = true ∧ ∃ k : Fin 16, (tags y2State .yWithoutY2).wc[k].tag ≠ .yWithY2 := by
  decide

theorem witness_IdctYResult : (15 : Fin 25).val = 4 * (3#2).toNat + (3#2).toNat ∧
    ((header y2State true true).hdr.pb = true ∨ (header y2State true true).cb[24].coded = false) ∧
    (header y2State true true).px.wf = true := by decide

theorem witness_IdctWResult : (15 : Fin 16).val = 4 * (3#2).toNat + (3#2).toNat ∧
    (tags State.reset .yWithoutY2).wc[(15 : Fin 16)].tag = .yWithoutY2 ∧ (tags State.reset .yWithoutY2).px.wf = true := by
  decide

theorem witness_IdctChromaResult : inChromaGrid 1#2 1#2 = true ∧ (19 : Fin 25).val = 16 + 2 * (1#2).toNat + (1#2).toNat ∧
    (23 : Fin 25).val = 20 + 2 * (1#2).toNat + (1#2).toNat ∧ State.reset.px.wf = true := by decide

theorem witness_IdctOfPendingBlockFaults : y2State.hdr.pb = false ∧ y2State.cb[24].coded = true ∧
    (0 : Fin 16).val = 4 * (0#2).toNat + (0#2).toNat ∧ y2State.wc[(0 : Fin 16)].tag = .yWithY2 := by decide

theorem witness_ChromaTermOffTheGridIsRefused : inChromaGrid 2#2 1#2 = false ∧ inChromaGrid 1#2 3#2 = false := by decide

theorem witness_ZeroBlockChangesNothing_y : (put State.reset .y 15 15 200#8).px.wf = true ∧
    (15 : Fin 25).val = 4 * (3#2).toNat + (3#2).toNat ∧
    (put State.reset .y 15 15 200#8).cb[24].coded = false ∧
    (put State.reset .y 15 15 200#8).cb[(15 : Fin 25)].coef = Coefs.zero := by decide

theorem witness_ZeroBlockChangesNothing_uv : (put State.reset .u 7 7 200#8).px.wf = true ∧ inChromaGrid 1#2 1#2 = true ∧
    (19 : Fin 25).val = 16 + 2 * (1#2).toNat + (1#2).toNat ∧ (23 : Fin 25).val = 20 + 2 * (1#2).toNat + (1#2).toNat ∧
    (put State.reset .u 7 7 200#8).cb[(19 : Fin 25)].coef = Coefs.zero ∧
    (put State.reset .u 7 7 200#8).cb[(23 : Fin 25)].coef = Coefs.zero := by decide

theorem witness_ZeroBlockChangesNothing_w : (tags State.reset .yWithoutY2).px.wf = true ∧
    (15 : Fin 16).val = 4 * (3#2).toNat + (3#2).toNat ∧
    (tags State.reset .yWithoutY2).wc[(15 : Fin 16)].tag = .yWithoutY2 ∧
    (tags State.reset .yWithoutY2).wc[(15 : Fin 16)].coef = Coefs.zero := by decide

theorem witness_CoreStepKeepsTheInputs : ∃ t, coreStep (busyAt State.reset .yCopy 0#4) = .next t := ⟨_, rfl⟩

theorem witness_EachStoreHasItsWriters : (∃ t, exec .predy State.reset = .next t) ∧ (∃ t, exec .wht y2State = .next t) :=
  ⟨⟨_, rfl⟩, ⟨_, rfl⟩⟩

theorem witness_InputsAreStableWhileBusy : (busyAt State.reset .yCopy 0#4).status.busy = true ∧
    (∀ p, (busyAt State.reset .yCopy 0#4).events.head? ≠ some (.reset p)) ∧
    ∃ t, step (busyAt State.reset .yCopy 0#4) = .next t := ⟨rfl, (fun _ h => nomatch h), _, rfl⟩

theorem witness_InputsAreStableWhileBusy_ctx :
    ({ busyAt State.reset .bPred 5#4 with events := [.ctxChange 7] } : State).status.busy = true ∧
    ∃ t, step { busyAt State.reset .bPred 5#4 with events := [.ctxChange 7] } = .next t ∧ t.ctx = 0 := ⟨rfl, _, rfl, rfl⟩

theorem witness_ChromaAndLumaAreIndependent : isChromaOp .predc = true ∧ isLumaOp .copyy = true ∧
    State.reset.px.wf = true ∧ ∃ t1 t2 u1 u2, exec .predc State.reset = .next t1 ∧ exec .copyy t1 = .next t2 ∧
      exec .copyy State.reset = .next u1 ∧ exec .predc u1 = .next u2 :=
  ⟨rfl, rfl, rfl, _, _, _, _, rfl, rfl, rfl, rfl⟩

theorem witness_LumaBlocksInAnyOrder : (0#2 ≠ 1#2 ∨ 3#2 ≠ 3#2) ∧ (tags State.reset .yWithoutY2).px.wf = true ∧
    (tags State.reset .yWithoutY2).copyFinal = true ∧
    ∃ t1 t2 u1 u2, exec (.idctW 0#2 3#2) (tags State.reset .yWithoutY2) = .next t1 ∧ exec (.idctW 1#2 3#2) t1 = .next t2 ∧
      exec (.idctW 1#2 3#2) (tags State.reset .yWithoutY2) = .next u1 ∧ exec (.idctW 0#2 3#2) u1 = .next u2 :=
  ⟨by decide, rfl, by decide, _, _, _, _, rfl, rfl, rfl, rfl⟩

theorem witness_LumaBlocksInAnyOrder_direct : (0#2 ≠ 1#2 ∨ 3#2 ≠ 3#2) ∧ State.reset.px.wf = true ∧
    State.reset.cb[24].coded = false ∧
    ∃ t1 t2 u1 u2, exec (.idctY 0#2 3#2) State.reset = .next t1 ∧ exec (.idctY 1#2 3#2) t1 = .next t2 ∧
      exec (.idctY 1#2 3#2) State.reset = .next u1 ∧ exec (.idctY 0#2 3#2) u1 = .next u2 :=
  ⟨by decide, rfl, rfl, _, _, _, _, rfl, rfl, rfl, rfl⟩

theorem witness_AcceptanceOfACommand : State.reset.isIdle = true ∧ (0x7001#16 : Word) ∉ legalWords ∧
    (0x504F#16 : Word) ∈ legalWords ∧ (0x504F#16 : Word) ≠ 0x1000#16 ∧
    (busyAt State.reset .cPred 0#4).status.fault = false ∧ (busyAt State.reset .cPred 0#4).status.busy = true ∧
    faulted.status.fault = true := by decide

theorem witness_IllegalCommandFaults : State.reset.inv = true ∧ State.reset.isIdle = true ∧ (0x5030#16 : Word) ∉ legalWords := by
  decide

/-- A `COPYY` latched and waiting for its step. -/
def directCopyy : State := { busyAt State.reset .direct 0#4 with cur := 0x6000#16 }

theorem witness_DirectStepRunsTheLatchedCommand : directCopyy.isRunning = true ∧
    directCopyy.seq = { ph := .direct, n := 0#4 } ∧ decode directCopyy.cur = .ok .copyy ∧ Instr.copyy ≠ .runmb ∧
    directCopyy.events = [] := by decide

theorem witness_StepRunsTheFetchedWord : decode 0x7000#16 = .ok .wht ∧ Instr.wht ≠ .runmb ∧
    decode 0x1000#16 = .ok .runmb := by decide

theorem witness_ChromaPhaseSteps_reached : (busyAt (header State.reset false true) .cIdct 7#4).isRunning = true ∧
    (busyAt (header State.reset false true) .cIdct 7#4).inv = true ∧
    (busyAt (header State.reset false true) .cIdct 7#4).seq.ph = .cIdct := by decide

theorem witness_ChromaPhaseSteps_pred : (busyAt State.reset .cPred 0#4).isRunning = true ∧
    (busyAt State.reset .cPred 0#4).seq = { ph := .cPred, n := 0#4 } := by decide

theorem witness_ChromaPhaseSteps_uncoded : (busyAt State.reset .cIdct 7#4).isRunning = true ∧
    (busyAt State.reset .cIdct 7#4).seq = { ph := .cIdct, n := BitVec.ofNat 4 (7 : Fin 8).val } ∧
    (busyAt State.reset .cIdct 7#4).cb[16 + (7 : Fin 8).val].coded = false := by decide

theorem witness_ChromaPhaseSteps_u : (busyAt (load State.reset 19 [] true) .cIdct 3#4).isRunning = true ∧
    (busyAt (load State.reset 19 [] true) .cIdct 3#4).seq = { ph := .cIdct, n := BitVec.ofNat 4 (3 : Fin 8).val } ∧
    (busyAt (load State.reset 19 [] true) .cIdct 3#4).cb[16 + (3 : Fin 8).val].coded = true ∧ (3 : Fin 8).val < 4 := by
  decide

theorem witness_ChromaPhaseSteps_v : (busyAt (load State.reset 20 [] true) .cIdct 4#4).isRunning = true ∧
    (busyAt (load State.reset 20 [] true) .cIdct 4#4).seq = { ph := .cIdct, n := BitVec.ofNat 4 (4 : Fin 8).val } ∧
    (busyAt (load State.reset 20 [] true) .cIdct 4#4).cb[16 + (4 : Fin 8).val].coded = true ∧ 4 ≤ (4 : Fin 8).val := by
  decide

theorem witness_WholeMacroblockSteps_zero : (busyAt State.reset .yPred 0#4).isRunning = true ∧
    (busyAt State.reset .yPred 0#4).seq = { ph := .yPred, n := 0#4 } ∧
    (busyAt State.reset .yCopy 0#4).seq = { ph := .yCopy, n := 0#4 } ∧
    (busyAt State.reset .yCopy 0#4).isRunning = true := by decide

theorem witness_WholeMacroblockSteps_wht : (busyAt (header y2State false true) .yWht 0#4).isRunning = true ∧
    (busyAt (header y2State false true) .yWht 0#4).seq = { ph := .yWht, n := 0#4 } ∧
    (busyAt (header y2State false true) .yWht 0#4).inv = true := by decide

theorem witness_WholeMacroblockSteps_idctW : (busyAt State.reset .yIdctW 15#4).isRunning = true ∧
    (busyAt State.reset .yIdctW 15#4).seq = { ph := .yIdctW, n := BitVec.ofNat 4 (15 : Fin 16).val } := by decide

theorem witness_WholeMacroblockSteps_idctD : (busyAt (header State.reset false true) .yIdctD 14#4).isRunning = true ∧
    (busyAt (header State.reset false true) .yIdctD 14#4).seq = { ph := .yIdctD, n := BitVec.ofNat 4 (14 : Fin 16).val } ∧
    (busyAt (header State.reset false true) .yIdctD 14#4).inv = true := by decide

theorem witness_PerBlockSteps_pred : (busyAt State.reset .bPred 15#4).isRunning = true ∧
    (busyAt State.reset .bPred 15#4).seq = { ph := .bPred, n := BitVec.ofNat 4 (15 : Fin 16).val } := by decide

theorem witness_PerBlockSteps_idct : (busyAt (header State.reset true true) .bIdct 0#4).isRunning = true ∧
    (busyAt (header State.reset true true) .bIdct 0#4).seq = { ph := .bIdct, n := BitVec.ofNat 4 (0 : Fin 16).val } ∧
    (busyAt (header State.reset true true) .bIdct 0#4).inv = true := by decide

theorem witness_EndOfACommand : directCopyy.isRunning = true ∧ directCopyy.seqAction = some (.run .copyy) ∧
    directCopyy.seqTarget = none ∧ ∃ u, exec .copyy directCopyy = .next u ∧ u.status.fault = false :=
  ⟨rfl, rfl, rfl, _, rfl, rfl⟩

theorem witness_IdleCoreRests : State.reset.isIdle = true ∧ State.reset.events = [] ∧
    ({ State.reset with events := [.coreStep] } : State).isIdle = true ∧
    ({ State.reset with events := [.coreStep] } : State).events = .coreStep :: [] := by decide

theorem witness_HostWriteWhileBusyFaults : (busyAt State.reset .bPred 5#4).status.busy = true ∧
    (busyAt State.reset .bPred 5#4).status.fault = false := by decide

theorem witness_HostReadReturnsTheContent : State.reset.status.busy = false ∧ faulted.status.busy = false := by decide

theorem witness_DataWindows : State.reset.status.busy = false ∧ State.reset.isIdle = true ∧ 7 < planeWidth .v ∧
    State.reset.px.wf = true := by decide

theorem witness_ReservedReadsZeroIgnoresWrites : 0x390 ≤ (0x390#11).toNat ∧ (0x390#11).toNat ≤ 0x3FF ∧
    (0x012#11).toNat = 0x012 ∧ State.reset.status.busy = false ∧ (busyAt State.reset .cPred 0#4).status.busy = true ∧
    (busyAt State.reset .cPred 0#4).status.fault = false ∧ 0x600 ≤ (0x77F#11).toNat ∧ (0x77F#11).toNat ≤ 0x77F := by
  decide

theorem witness_HostWriteChangesOneElement : State.reset.isIdle = true ∧ (0x002#11 : HAddr) ≠ 0x000#11 ∧
    (0x011#11 : HAddr) ≠ 0x002#11 := by decide

theorem witness_HostWriteReadsBack : State.reset.isIdle = true := by decide

theorem witness_FlagViews : State.reset.status.busy = false ∧ State.reset.isIdle = true := by decide

theorem witness_FaultEntryIsPrecise : ({ State.reset with events := [.hostWrite 0#11 0#16] } : State).inv = true ∧
    ({ State.reset with events := [.hostWrite 0#11 0#16] } : State).status.fault = false ∧
    ∃ t, step { State.reset with events := [.hostWrite 0#11 0#16] } = .next t ∧ t.status.fault = true :=
  ⟨by decide, rfl, _, rfl, rfl⟩

theorem witness_FaultStateIsFrozen : faulted.inv = true ∧ faulted.status.fault = true := by decide

theorem witness_OnlyResetLeavesTheFaultState : faulted.status.fault = true ∧ ∃ t, step faulted = .next t :=
  ⟨rfl, _, rfl⟩

theorem witness_ResetEffect : ({ faulted with events := [.reset PowerUp.zero] } : State).events = .reset PowerUp.zero :: [] :=
  rfl

theorem witness_StepKeepsTheLegalStates : directCopyy.inv = true ∧ ∃ t, step directCopyy = .next t := ⟨by decide, _, rfl⟩

theorem witness_LegalStatesAlwaysStep : directCopyy.inv = true := by decide

theorem witness_RunmbStepsNeverFault : (busyAt (header y2State false true) .yWht 0#4).inv = true ∧
    (busyAt (header y2State false true) .yWht 0#4).isRunning = true ∧
    (busyAt (header y2State false true) .yWht 0#4).seq.ph ≠ .direct := by decide

theorem witness_EveryCommandEnds : (busyAt (header y2State true true) .bIdct 3#4).inv = true ∧
    (busyAt (header y2State true true) .bIdct 3#4).isRunning = true := by decide

theorem witness_RunmbRefinesTheProgram : (header y2State false true).inv = true ∧ (header y2State false true).isIdle = true ∧
    ∃ s0, (header y2State false true).hostWrite 0x000#11 0x1000#16 = .next s0 := ⟨by decide, rfl, _, rfl⟩

theorem witness_NoResidualMeansPrediction : (header State.reset false false).inv = true ∧
    (header State.reset false false).isIdle = true ∧ (header State.reset false false).hdr.hnz = false ∧
    (header State.reset false false).hdr.pb = false ∧
    ∃ s0, (header State.reset false false).hostWrite 0x000#11 0x1000#16 = .next s0 := ⟨by decide, rfl, rfl, rfl, _, rfl⟩

theorem witness_Y2PathReconstruction : (header y2State false true).inv = true ∧ (header y2State false true).isIdle = true ∧
    (header y2State false true).hdr.hnz = true ∧ (header y2State false true).hdr.pb = false ∧
    (header y2State false true).cb[24].coded = true ∧
    ∃ s0, (header y2State false true).hostWrite 0x000#11 0x1000#16 = .next s0 := ⟨by decide, rfl, rfl, rfl, rfl, _, rfl⟩

end Sys2Proof.Tests
end

section
/-! PROOFS of the arithmetic of 00_scope.md: the shift (R9), `wrap_N` (R10) and `clamp255` (R11). -/

namespace Sys2Proof.Machine

/-! ### The shift (R9) -/

theorem asr_mul_le (v : Int) (k : Nat) : asr v k * 2 ^ k ≤ v := by
  have h := Int.ediv_mul_le v (b := 2 ^ k) (by positivity)
  simpa [asr] using h

theorem lt_asr_add_one_mul (v : Int) (k : Nat) : v < (asr v k + 1) * 2 ^ k := by
  have h := Int.lt_ediv_add_one_mul_self v (b := 2 ^ k) (by positivity)
  simpa [asr] using h

/-! ### `wrap_N` (R10) -/

theorem wrapTo_eq_bmod (n : Nat) (v : Int) : wrapTo n v = v.bmod (2 ^ n) := BitVec.toInt_ofInt v

theorem le_wrapTo (n : Nat) (v : Int) : -2 ^ (n - 1) ≤ wrapTo n v := BitVec.le_toInt _

theorem wrapTo_le (n : Nat) (v : Int) : wrapTo n v ≤ 2 ^ (n - 1) - 1 := Int.le_sub_one_of_lt BitVec.toInt_lt

theorem sub_wrapTo_emod (n : Nat) (v : Int) : (v - wrapTo n v) % 2 ^ n = 0 := by
  have h : ((2 ^ n : Nat) : Int) ∣ v - v.bmod (2 ^ n) := Int.dvd_self_sub_bmod
  rw [wrapTo_eq_bmod]
  exact Int.emod_eq_zero_of_dvd (by exact_mod_cast h)

/-- `wrap_N` depends on the residue modulo `2^N` only. -/
theorem wrapTo_congr {n : Nat} {v w : Int} (h : (v - w) % 2 ^ n = 0) : wrapTo n v = wrapTo n w := by
  have hmod : v % ((2 ^ n : Nat) : Int) = w % ((2 ^ n : Nat) : Int) := by
    exact_mod_cast Int.emod_eq_emod_iff_emod_sub_eq_zero.mpr h
  rw [wrapTo_eq_bmod, wrapTo_eq_bmod, ← Int.emod_bmod v, hmod, Int.emod_bmod]

/-- `wrap_N` keeps every integer of the signed `N`-bit range. -/
theorem wrapTo_of_inRange {n : Nat} {w : Int} (hn : 1 ≤ n) (hlo : -2 ^ (n - 1) ≤ w) (hhi : w ≤ 2 ^ (n - 1) - 1) :
    wrapTo n w = w :=
  BitVec.toInt_ofInt_eq_self hn hlo (Int.lt_of_le_sub_one hhi)

/-- Settles O6: the floor of a quotient bounds the shift on both sides; a congruent integer of the range has the same
`wrap_N` as `v`, and is its own. -/
theorem shiftAndWrap : Obligations.ShiftAndWrap := by
  refine ⟨fun v k => ⟨asr_mul_le v k, lt_asr_add_one_mul v k⟩, fun n v hn =>
    ⟨le_wrapTo n v, wrapTo_le n v, sub_wrapTo_emod n v, fun w hlo hhi hcongr => ?_⟩⟩
  calc w = wrapTo n w := (wrapTo_of_inRange hn hlo hhi).symm
    _ = wrapTo n v := (wrapTo_congr hcongr).symm

/-! ### `clamp255` (R11) -/

theorem clamp255_of_neg {v : Int} (h : v < 0) : clamp255 v = 0 := if_pos h

theorem clamp255_of_gt {v : Int} (h : 255 < v) : clamp255 v = 255 := by
  have hnonneg : ¬ v < 0 := by omega
  rw [clamp255, if_neg hnonneg, if_pos h]

theorem clamp255_of_inRange {v : Int} (hlo : 0 ≤ v) (hhi : v ≤ 255) : clamp255 v = v := by
  rw [clamp255, if_neg (Int.not_lt.mpr hlo), if_neg (Int.not_lt.mpr hhi)]

/-- Settles O7: `clamp255` on each of its three ranges, and its value as the byte that holds it. -/
theorem clampSaturates : Obligations.ClampSaturates := fun v =>
  ⟨clamp255_of_neg, clamp255_of_gt, clamp255_of_inRange, clampByte_toNat v⟩

end Sys2Proof.Machine
end

section
/-! PROOFS that every step keeps the legal states (R31, R109): one lemma for each move of the machine, then the sequencer's
targets, then the step. -/

namespace Sys2Proof.Machine

/-! ### The invariant, part by part -/

theorem State.inv_iff {s : State} :
    s.inv = true ↔ s.px.wf = true ∧ s.statusLegal = true ∧ s.phaseLegal = true := by
  simp [State.inv, and_assoc]

@[simp] theorem State.isRunning_iff {s : State} :
    s.isRunning = true ↔ s.status.busy = true ∧ s.status.fault = false := by
  simp [State.isRunning]

@[simp] theorem State.isIdle_iff {s : State} :
    s.isIdle = true ↔ s.status.busy = false ∧ s.status.fault = false := by
  simp [State.isIdle]

/-- Outside the fault state a legal `STATUS` holds no cause, `FINFO` is zero, and `DONE` excludes `BUSY`. -/
theorem State.statusLegal_of_no_fault {s : State} (hf : s.status.fault = false) :
    s.statusLegal = true ↔
      (s.status.done = true → s.status.busy = false) ∧ s.status.fcode = .none ∧ s.finfo = 0#16 := by
  cases hd : s.status.done <;> simp [State.statusLegal, hf, hd, and_assoc]

theorem State.done_eq_false_of_busy {s : State} (h : s.statusLegal = true) (hb : s.status.busy = true) :
    s.status.done = false := by
  cases hd : s.status.done
  · rfl
  · simp [State.statusLegal, hb, hd] at h

/-- An idle core's sequencer stands at `(IDLE, 0)`: every other phase is busy or the fault state (R109). -/
theorem State.seq_eq_idle {s : State} (h : s.phaseLegal = true) (hi : s.isIdle = true) :
    s.seq = { ph := .idle, n := 0#4 } := by
  obtain ⟨hb, hf⟩ := State.isIdle_iff.mp hi
  rcases hs : s.seq with ⟨ph, n⟩
  cases ph <;> simp [State.phaseLegal, hs, hb, hf] at h
  rw [h]

/-! ### Moves that keep the invariant -/

/-- Fault entry with a cause, from a state whose `DONE` is 0 (R133). -/
theorem State.raiseFault_inv {s : State} {c : FaultCode} {w : Word} (hpx : s.px.wf = true)
    (hd : s.status.done = false) (hc : c ≠ .none) : (s.raiseFault c w).inv = true := by
  simp [State.inv, State.statusLegal, State.phaseLegal, hpx, hd, hc]

/-- A host write to a busy core faults (R132). -/
theorem State.hostWriteBusy_inv {s : State} {w : Word} (h : s.inv = true) (hb : s.status.busy = true) :
    (s.raiseFault .hostWriteBusy w).inv = true := by
  obtain ⟨hpx, hst, -⟩ := State.inv_iff.mp h
  exact raiseFault_inv hpx (done_eq_false_of_busy hst hb) (by decide)

/-- Acceptance faults, or starts the sequencer in a phase whose condition holds (R106). -/
theorem State.accept_inv {s t : State} {w : Word} (h : s.inv = true) (hi : s.isIdle = true)
    (ht : s.accept w = .next t) : t.inv = true := by
  obtain ⟨hpx, hst, -⟩ := State.inv_iff.mp h
  obtain ⟨-, hf⟩ := State.isIdle_iff.mp hi
  obtain ⟨-, hcode, hinfo⟩ := (State.statusLegal_of_no_fault hf).mp hst
  rcases s.accept_cases w with ⟨-, e⟩ | ⟨-, e⟩ | ⟨hw, e⟩ <;> rw [e] at ht <;> obtain rfl := Host.Outcome.next.inj ht
  · exact raiseFault_inv hpx rfl (by decide)
  · simp [State.inv, State.statusLegal, State.phaseLegal, hpx, hf, hcode, hinfo]
  · simp [State.inv, State.statusLegal, State.phaseLegal, hpx, hf, hcode, hinfo, hw]

@[simp] theorem State.writeReg_status (s : State) (v : Word) (r : HostReg) : (s.writeReg v r).status = s.status := by
  cases r <;> simp only [State.writeReg]

@[simp] theorem State.writeReg_seq (s : State) (v : Word) (r : HostReg) : (s.writeReg v r).seq = s.seq := by
  cases r <;> simp only [State.writeReg]

@[simp] theorem State.writeReg_finfo (s : State) (v : Word) (r : HostReg) : (s.writeReg v r).finfo = s.finfo := by
  cases r <;> simp only [State.writeReg]

/-- The addresses the map calls samples lie in the raster (R42, R44). -/
theorem sample_range_of_hostReg {a : HAddr} {n : Nat} :
    hostReg a = .sample n → Memory.firstAddr ≤ n ∧ n < Memory.endAddr := by
  fun_cases hostReg a
  case case14 hrange =>
    intro h
    obtain rfl := HostReg.sample.inj h
    exact hrange
  all_goals nofun

theorem State.writeReg_wf {s : State} {a : HAddr} {v : Word} (hpx : s.px.wf = true) :
    (s.writeReg v (hostReg a)).px.wf = true := by
  cases hr : hostReg a with
  | sample n =>
    obtain ⟨hlo, hhi⟩ := sample_range_of_hostReg hr
    exact Memory.write_wf hpx hlo hhi
  | _ => simpa only [State.writeReg] using hpx

/-- An idle data write changes nothing that the status or the `IDLE` phase speaks of. -/
theorem State.writeReg_inv {s : State} {a : HAddr} {v : Word} (h : s.inv = true) (hi : s.isIdle = true) :
    (s.writeReg v (hostReg a)).inv = true := by
  obtain ⟨hpx, hst, hph⟩ := State.inv_iff.mp h
  have hseq := State.seq_eq_idle hph hi
  obtain ⟨hb, hf⟩ := State.isIdle_iff.mp hi
  refine State.inv_iff.mpr ⟨writeReg_wf hpx, ?_, ?_⟩
  · simpa [State.statusLegal] using hst
  · simp [State.phaseLegal, hseq, hb, hf]

theorem State.hostWrite_inv {s t : State} {a : HAddr} {v : Word} (h : s.inv = true)
    (ht : s.hostWrite a v = .next t) : t.inv = true := by
  rcases s.hostWrite_cases a v with ⟨-, e⟩ | ⟨-, hb, e⟩ | ⟨hi, -, e⟩ | ⟨hi, -, e⟩ <;> rw [e] at ht
  · obtain rfl := Host.Outcome.next.inj ht; exact h
  · obtain rfl := Host.Outcome.next.inj ht; exact hostWriteBusy_inv h hb
  · exact accept_inv h hi ht
  · obtain rfl := Host.Outcome.next.inj ht; exact writeReg_inv h hi

/-- A reset leads to a legal state, whatever the data stores come up with (R40). -/
theorem State.resetCore_inv (s : State) (p : PowerUp) : (s.resetCore p).inv = true :=
  State.inv_iff.mpr ⟨s.resetCore_wf p, rfl, rfl⟩

/-! ### Where the sequencer goes (R110 to R121) -/

/-- The sequencer's next position is one whose conditions hold; `none` is the end of the command. -/
def State.TargetLegal (u : State) : Option Sequencer → Prop
  | none => True
  | some q => (u.goto q).phaseLegal = true

theorem State.advance_inv {u : State} {o : Option Sequencer} (hpx : u.px.wf = true) (hst : u.statusLegal = true)
    (hf : u.status.fault = false) (ho : u.TargetLegal o) : (u.advance o).inv = true := by
  obtain ⟨-, hcode, hinfo⟩ := (State.statusLegal_of_no_fault hf).mp hst
  cases o with
  | some q => exact State.inv_iff.mpr ⟨hpx, hst, ho⟩
  | none => simp [State.advance, State.inv, State.statusLegal, State.phaseLegal, hpx, hf, hcode, hinfo]

theorem State.targetLegal_countTo {u : State} {last : Nat} {ph : Phase} {n : BitVec 4} {after : Option Sequencer}
    (hnext : n.toNat < last → (u.goto { ph := ph, n := n + 1#4 }).phaseLegal = true)
    (hafter : u.TargetLegal after) : u.TargetLegal (countTo last ph n after) := by
  unfold countTo
  split
  · next h => exact hnext h
  · exact hafter

/-- Both luma phases the run can enter have only the condition that `HDR.PB` decides (R112). -/
theorem State.lumaEntry_legal {s u : State} (hhdr : u.hdr = s.hdr) (hb : u.status.busy = true) :
    u.TargetLegal (some s.lumaEntry) := by
  cases hpb : s.hdr.pb <;> simp [State.TargetLegal, State.lumaEntry, State.phaseLegal, hhdr, hpb, hb]

@[simp] theorem State.goto_y2Coded (s : State) (q : Sequencer) : (s.goto q).y2Coded = s.y2Coded := rfl
@[simp] theorem State.goto_y2Path (s : State) (q : Sequencer) : (s.goto q).y2Path = s.y2Path := rfl
@[simp] theorem State.goto_copyFinal (s : State) (q : Sequencer) : (s.goto q).copyFinal = s.copyFinal := rfl
@[simp] theorem State.goto_copyNotPending (s : State) (q : Sequencer) :
    (s.goto q).copyNotPending = s.copyNotPending := rfl

/-- After a step that left `HDR` and `CB` alone and its core busy, the sequencer's move is legal; the two conditions on
the working copy are what `COPYY` and `WHT` establish (R114 to R116). -/
theorem State.seqTarget_legal {s u : State} (hs : s.phaseLegal = true) (hhdr : u.hdr = s.hdr) (hcb : u.cb = s.cb)
    (hb : u.status.busy = true) (hcopy : s.seq.ph = .yCopy → u.copyNotPending = false)
    (hfinal : s.seq.ph = .yWht ∨ s.seq.ph = .yIdctW → u.copyFinal = true) : u.TargetLegal s.seqTarget := by
  have hentry := State.lumaEntry_legal hhdr hb
  have hy2 : u.y2Coded = s.y2Coded := by simp only [State.y2Coded, hcb]
  have hpath : u.y2Path = s.y2Path := by simp only [State.y2Path, hhdr, hy2]
  unfold State.phaseLegal at hs
  unfold State.seqTarget
  cases hph : s.seq.ph <;> simp only [hph, Bool.and_eq_true, decide_eq_true_eq] at hs ⊢
  case idle | direct | faulted => trivial
  case cPred =>
    split
    · next hnz => simp [State.TargetLegal, State.phaseLegal, hhdr, hnz, hb]
    · exact hentry
  case cIdct =>
    refine targetLegal_countTo (fun h => ?_) hentry
    have hlt : (s.seq.n + 1#4).toNat < 8 := by bv_omega
    simpa [State.phaseLegal, hhdr, hb, hs] using hlt
  case yPred =>
    split
    · trivial
    · next hnz =>
      simp only [Bool.not_eq_false] at hnz
      split
      · next hc =>
        have hon : s.y2Path = true := by simpa [State.y2Path, hnz, hc] using hs.2
        simp [State.TargetLegal, State.phaseLegal, hb, hpath, hon]
      · next hc => simp [State.TargetLegal, State.phaseLegal, hb, hhdr, hy2, hs, hnz, hc]
  case yCopy => simp [State.TargetLegal, State.phaseLegal, hb, hpath, hs, hcopy hph]
  case yWht => simp [State.TargetLegal, State.phaseLegal, hb, hpath, hs, hfinal (.inl hph)]
  case yIdctW =>
    refine targetLegal_countTo (fun h => ?_) trivial
    simp [State.phaseLegal, hb, hpath, hs, hfinal (.inr hph)]
  case yIdctD =>
    refine targetLegal_countTo (fun h => ?_) trivial
    simp [State.phaseLegal, hb, hhdr, hy2, hs]
  case bPred =>
    split
    · next hnz => simp [State.TargetLegal, State.phaseLegal, hb, hhdr, hs, hnz]
    · exact targetLegal_countTo (fun h => by simp [State.phaseLegal, hb, hhdr, hs]) trivial
  case bIdct => exact targetLegal_countTo (fun h => by simp [State.phaseLegal, hb, hhdr, hs]) trivial

/-! ### A core step -/

/-- `COPYY` on the path through the working copy leaves all 16 blocks pending (R75, R115). -/
theorem copyNotPending_of_copyy {s u : State} (hp : s.y2Path = true) (h : exec .copyy s = .next u) :
    u.copyNotPending = false := by
  obtain rfl := Host.Outcome.next.inj h
  simp only [State.y2Path, Bool.and_eq_true, Bool.not_eq_true'] at hp
  simp [State.copyNotPending, State.lumaTag, hp]

/-- A `WHT` that raises no fault leaves all 16 blocks final (R80). -/
theorem copyFinal_of_wht {s u : State} (h : exec .wht s = .next u) (hf : u.status.fault = false) :
    u.copyFinal = true := by
  rcases execWht_cases s with ⟨-, e⟩ | ⟨-, -, e⟩ | ⟨-, -, -, e⟩ | ⟨-, -, -, e⟩ <;> rw [e] at h <;>
    obtain rfl := Host.Outcome.next.inj h
  · cases hf
  · cases hf
  · cases hf
  · simp [State.copyFinal]

theorem onlyAtZero_eq_some {n : BitVec 4} {a : Option SeqAction} {x : SeqAction} :
    onlyAtZero n a = some x ↔ n = 0#4 ∧ a = some x := by
  simp [onlyAtZero]

/-- The sequencer never dispatches `RUNMB` (R109, R120). -/
theorem State.ne_runmb_of_seqAction {s : State} {i : Instr} (h : s.seqAction = some (.run i)) : i ≠ .runmb := by
  rintro rfl
  unfold State.seqAction at h
  cases hph : s.seq.ph <;>
    simp only [hph, onlyAtZero_eq_some, Option.some.injEq, SeqAction.run.injEq, reduceCtorEq, and_false] at h
  case cIdct =>
    simp only [State.chromaAction, chromaInstr] at h
    split_ifs at h <;> cases h
  case direct =>
    obtain ⟨-, h⟩ := h
    unfold State.directAction at h
    split at h
    · cases h
    · next hne _ => cases h; exact hne rfl
    · cases h

/-- What a micro-op that raised no fault left as it was: all the sequencer's conditions read but the working copy. -/
theorem exec_keeps_control {i : Instr} {s u : State} (hi : i ≠ .runmb) (h : exec i s = .next u)
    (hf : u.status.fault = false) :
    u.hdr = s.hdr ∧ u.cb = s.cb ∧ u.status.busy = s.status.busy ∧ u.statusLegal = s.statusLegal ∧
      (i ≠ .copyy → i ≠ .wht → u.wc = s.wc) := by
  rcases exec_next_cases hi h with ⟨c, w, -, rfl⟩ | ⟨e, hwc, -⟩
  · cases hf
  · rw [e]
    exact ⟨rfl, rfl, rfl, rfl, hwc⟩

/-- The conditions on the working copy that the next phase has hold after the phase's micro-op (R114 to R116). -/
theorem State.copy_conditions {s u : State} {i : Instr} (hs : s.phaseLegal = true) (ha : s.seqAction = some (.run i))
    (h : exec i s = .next u) (hf : u.status.fault = false) :
    (s.seq.ph = .yCopy → u.copyNotPending = false) ∧
      (s.seq.ph = .yWht ∨ s.seq.ph = .yIdctW → u.copyFinal = true) := by
  unfold State.phaseLegal at hs
  unfold State.seqAction at ha
  refine ⟨fun hph => ?_, ?_⟩
  · simp only [hph, onlyAtZero_eq_some, Option.some.injEq, SeqAction.run.injEq, Bool.and_eq_true] at hs ha
    obtain ⟨-, hpath⟩ := hs
    obtain ⟨-, rfl⟩ := ha
    exact copyNotPending_of_copyy hpath h
  · rintro (hph | hph) <;>
      simp only [hph, onlyAtZero_eq_some, Option.some.injEq, SeqAction.run.injEq, Bool.and_eq_true] at hs ha
    · obtain ⟨-, rfl⟩ := ha
      exact copyFinal_of_wht h hf
    · subst ha
      obtain ⟨-, -, -, -, hwc⟩ := exec_keeps_control (by simp) h hf
      simpa [State.copyFinal, hwc] using hs.2

/-- A core step faults with `DONE` at 0, or moves the sequencer where it may go. -/
theorem coreStep_inv {s t : State} (h : s.inv = true) (ht : coreStep s = .next t) : t.inv = true := by
  obtain ⟨hpx, hst, hph⟩ := State.inv_iff.mp h
  rcases coreStep_next ht with ⟨-, rfl⟩ | ⟨hr, ha, rfl⟩ | ⟨hr, i, u, ha, hu, rfl⟩
  · exact h
  · obtain ⟨hb, hf⟩ := State.isRunning_iff.mp hr
    refine State.advance_inv hpx hst hf (State.seqTarget_legal hph rfl rfl hb ?_ ?_)
    · intro e; simp [State.seqAction, e, onlyAtZero] at ha
    · rintro (e | e) <;> simp [State.seqAction, e, onlyAtZero] at ha
  · obtain ⟨hb, hf⟩ := State.isRunning_iff.mp hr
    have hi := State.ne_runmb_of_seqAction ha
    split
    · next hfault =>
      rcases exec_next_cases hi hu with ⟨c, w, hc, rfl⟩ | ⟨e, -⟩
      · exact State.raiseFault_inv hpx (State.done_eq_false_of_busy hst hb) hc
      · rw [e] at hfault
        exact absurd hfault (by simp [hf])
    · next hfault =>
      simp only [Bool.not_eq_true] at hfault
      obtain ⟨hhdr, hcb, hbusy, hstatus, -⟩ := exec_keeps_control hi hu hfault
      obtain ⟨hcopy, hfinal⟩ := State.copy_conditions hph ha hu hfault
      exact State.advance_inv (exec_wf hu hpx) (hstatus.trans hst) hfault
        (State.seqTarget_legal hph hhdr hcb (hbusy.trans hb) hcopy hfinal)

/-! ### Every step -/

@[simp] theorem State.inv_events (s : State) (l : List Event) : ({ s with events := l } : State).inv = s.inv := rfl
@[simp] theorem State.inv_hostRead (s : State) (a : HAddr) : (s.hostRead a).inv = s.inv := rfl
@[simp] theorem State.inv_changeCtx (s : State) (c : Nat) : (s.changeCtx c).inv = s.inv := rfl

/-- Settles O53: the invariant by the event that is next. -/
theorem stepKeepsTheLegalStates : Obligations.StepKeepsTheLegalStates := by
  intro s t h ht
  rcases step_cases s with ⟨-, e⟩ | ⟨rest, -, e⟩ | ⟨a, rest, -, e⟩ | ⟨a, v, rest, -, e⟩ | ⟨p, rest, -, e⟩ |
    ⟨c, rest, -, e⟩ <;> rw [e] at ht
  · exact coreStep_inv h ht
  · exact coreStep_inv (by simpa only [State.inv_events] using h) ht
  · obtain rfl := Host.Outcome.next.inj ht
    simpa only [State.inv_hostRead, State.inv_events] using h
  · exact State.hostWrite_inv (by simpa only [State.inv_events] using h) ht
  · obtain rfl := Host.Outcome.next.inj ht
    exact State.resetCore_inv _ p
  · obtain rfl := Host.Outcome.next.inj ht
    simpa only [State.inv_changeCtx, State.inv_events] using h

end Sys2Proof.Machine
end

section
/-! PROOFS about the state elements of 10_state.md: which command writes which store, what the control registers read as,
and reset. -/

namespace Sys2Proof.Machine

/-! ### The writers of each store (R16, R24, R37, R52) -/

/-- A meaning writes neither the commands' inputs nor anything outside the core but the record of requests. -/
theorem exec_keeps_inputs {i : Instr} {s t : State} (h : exec i s = .next t) :
    t.cb = s.cb ∧ t.hdr = s.hdr ∧ t.bmode = s.bmode ∧ t.cur = s.cur ∧ t.ctx = s.ctx ∧ t.events = s.events := by
  by_cases hi : i = .runmb
  · subst hi
    obtain rfl := Host.Outcome.next.inj h
    simp
  · rcases exec_next_cases hi h with ⟨c, w, -, rfl⟩ | ⟨e, -⟩
    · simp
    · rw [e]; simp

theorem State.advance_keeps_inputs (s : State) (o : Option Sequencer) :
    (s.advance o).cb = s.cb ∧ (s.advance o).hdr = s.hdr ∧ (s.advance o).bmode = s.bmode ∧
      (s.advance o).cur = s.cur ∧ (s.advance o).ctx = s.ctx ∧ (s.advance o).events = s.events := by
  rw [s.advance_eq o]; simp

/-- Settles O26: a core step is a meaning, the sequencer's move, or both. -/
theorem coreStepKeepsTheInputs : Obligations.CoreStepKeepsTheInputs := by
  intro s t h
  rcases coreStep_next h with ⟨-, rfl⟩ | ⟨-, -, rfl⟩ | ⟨-, i, u, -, hu, rfl⟩
  · simp
  · exact s.advance_keeps_inputs _
  · have hkeep := exec_keeps_inputs hu
    split
    · exact hkeep
    · simpa only [u.advance_keeps_inputs s.seqTarget] using hkeep

/-- `RUNMB`, `COPYY` and `WHT` write no sample (R52). -/
theorem exec_px_eq {i : Instr} {s t : State} (hi : i = .runmb ∨ i = .copyy ∨ i = .wht) (h : exec i s = .next t) :
    t.px = s.px := by
  rcases hi with rfl | rfl | rfl
  · obtain rfl := Host.Outcome.next.inj h; simp
  · obtain rfl := Host.Outcome.next.inj h; rfl
  · rcases execWht_cases s with ⟨-, e⟩ | ⟨-, -, e⟩ | ⟨-, -, -, e⟩ | ⟨-, -, -, e⟩ <;> rw [e] at h <;>
      obtain rfl := Host.Outcome.next.inj h <;> simp

/-- Settles O27: `RUNMB` only starts the sequencer, and a micro-op's writes are those of its row of R52. -/
theorem eachStoreHasItsWriters : Obligations.EachStoreHasItsWriters := by
  intro i s t h
  suffices hwrites : (i ≠ .copyy → i ≠ .wht → t.wc = s.wc) ∧ (i ≠ .wht → t.status.dcovf = s.status.dcovf) from
    ⟨hwrites.1, hwrites.2, fun hi => exec_px_eq hi h⟩
  by_cases hi : i = .runmb
  · subst hi
    obtain rfl := Host.Outcome.next.inj h
    simp
  · rcases exec_next_cases hi h with ⟨c, w, -, rfl⟩ | ⟨-, hwc, hst⟩
    · simp
    · exact ⟨hwc, fun hw => congrArg Status.dcovf (hst hw)⟩

/-! ### The words of the control registers (R22, R23, R30, R31, R36) -/

/-- Bit `k` of a packed word is the flag `f k`. -/
@[simp] theorem packBits_getElem {n k : Nat} (f : Nat → Bool) (hk : k < 16) :
    (packBits n f)[k] = (decide (k < n) && f k) := by
  induction n with
  | zero => simp [packBits]
  | succ n ih =>
    have hbit : (if f n then 1#16 <<< n else 0#16)[k] = (decide (k = n) && f n) := by
      cases f n
      · simp
      · have hiff : n ≤ k ∧ k - n = 0 ↔ k = n := by omega
        rw [Bool.eq_iff_iff]
        simpa using hiff
    rw [packBits, BitVec.getElem_or, ih, hbit]
    rcases Nat.lt_trichotomy k n with hlt | rfl | hgt
    · simp [hlt, hlt.ne, Nat.lt_succ_of_lt hlt]
    · simp
    · simp [hgt.not_gt, hgt.ne', Nat.not_lt.mpr hgt]

theorem Status.word_fields (st : Status) :
    st.word.getLsbD 0 = st.busy ∧ st.word.getLsbD 1 = st.done ∧ st.word.getLsbD 2 = st.fault ∧
      st.word.getLsbD 3 = st.dcovf ∧ st.word.extractLsb' 4 4 = st.fcode.code ∧ st.word.extractLsb' 8 8 = 0#8 := by
  refine ⟨?_, ?_, ?_, ?_, BitVec.eq_of_getLsbD_eq fun k hk => ?_, BitVec.eq_of_getLsbD_eq fun k hk => ?_⟩
  · simp [Status.word]
  · simp [Status.word]
  · simp [Status.word]
  · simp [Status.word]
  · interval_cases k <;> simp [Status.word]
  · interval_cases k <;> simp [Status.word]

theorem Header.word_fields (h : Header) :
    h.word.getLsbD 0 = h.pb ∧ h.word.getLsbD 1 = h.hnz ∧ h.word.extractLsb' 2 2 = 0#2 ∧
      h.word.extractLsb' 4 4 = h.ymode ∧ h.word.extractLsb' 8 4 = h.cmode ∧ h.word.extractLsb' 12 4 = 0#4 := by
  refine ⟨?_, ?_, BitVec.eq_of_getLsbD_eq fun k hk => ?_, BitVec.eq_of_getLsbD_eq fun k hk => ?_,
    BitVec.eq_of_getLsbD_eq fun k hk => ?_, BitVec.eq_of_getLsbD_eq fun k hk => ?_⟩
  · simp [Header.word]
  · simp [Header.word]
  all_goals
    interval_cases k <;> simp [Header.word]

theorem Sequencer.word_fields (q : Sequencer) :
    q.word.extractLsb' 0 4 = q.n ∧ q.word.extractLsb' 4 4 = q.ph.code ∧ q.word.extractLsb' 8 8 = 0#8 := by
  refine ⟨BitVec.eq_of_getLsbD_eq fun k hk => ?_, BitVec.eq_of_getLsbD_eq fun k hk => ?_,
    BitVec.eq_of_getLsbD_eq fun k hk => ?_⟩
  all_goals
    interval_cases k <;> simp [Sequencer.word]

/-- Settles O47: the fields of the three registers; the codes are the model's tables. -/
theorem controlRegisterLayouts : Obligations.ControlRegisterLayouts := by
  refine ⟨fun st h q => ⟨st.word_fields, h.word_fields, q.word_fields⟩, by decide, by decide, by decide, by decide,
    by decide, fun s => ?_⟩
  obtain ⟨hbusy, hdone, hfault, -⟩ := s.status.word_fields
  simp only [State.pins, hbusy, hdone, hfault]

/-! ### What the host reads and writes of them while the core is idle (R36, R47, R48) -/

theorem State.hostReadValue_of_not_busy {s : State} (hb : s.status.busy = false) (a : HAddr) :
    s.hostReadValue a = s.content (hostReg a) := by
  simp [State.hostReadValue, State.readIsFree, hb]

/-- An idle write of a register other than `CMD`, and what the host then reads at its address. -/
theorem State.hostWrite_of_idle {s : State} (hi : s.isIdle = true) (v : Word) {a : HAddr} {r : HostReg}
    (hreg : hostReg a = r) (hne : r ≠ .cmd) :
    s.hostWrite a v = .next (s.writeReg v r) ∧
      (s.writeReg v r).hostReadValue a = (s.writeReg v r).content r := by
  subst hreg
  obtain ⟨hb, hf⟩ := State.isIdle_iff.mp hi
  exact ⟨by simp [State.hostWrite, hb, hf, hne], hostReadValue_of_not_busy (by simpa using hb) a⟩

@[simp] theorem State.writeReg_codedLo (s : State) (v : Word) (b : Nat) (hb : b < 25) :
    (s.writeReg v .codedLo).cb[b] = { s.cb[b] with coded := if b < 16 then v.getLsbD b else s.cb[b].coded } := by
  by_cases h : b < 16 <;> simp [State.writeReg, h]

@[simp] theorem State.writeReg_codedHi (s : State) (v : Word) (b : Nat) (hb : b < 25) :
    (s.writeReg v .codedHi).cb[b] =
      { s.cb[b] with coded := if b < 16 then s.cb[b].coded else v.getLsbD (b - 16) } := by
  by_cases h : b < 16 <;> simp [State.writeReg, h]

theorem Header.word_ofWord (v : Word) : (Header.ofWord v).word = v &&& 0x0FF3#16 := by
  refine BitVec.eq_of_getLsbD_eq fun k hk => ?_
  interval_cases k <;> simp [Header.word, Header.ofWord]

/-- `BMODEr` reads as the word whose nibbles are the four modes of its row (R23). -/
theorem State.bmodeWord_eq {s : State} {r : Fin 4} {v : Word}
    (h : ∀ c : Fin 4, s.bmode[4 * r.val + c.val] = v.extractLsb' (4 * c.val) 4) : s.bmodeWord r = v := by
  simp only [State.bmodeWord, h]
  refine BitVec.eq_of_getLsbD_eq fun k hk => ?_
  interval_cases k <;> simp

@[simp] theorem State.writeReg_bmode (s : State) (v : Word) (r c : Fin 4) :
    (s.writeReg v (.bmode r)).bmode[4 * r.val + c.val] = v.extractLsb' (4 * c.val) 4 := by
  have hrow : (4 * r.val + c.val) / 4 = r.val := by omega
  have hcol : (4 * r.val + c.val) % 4 = c.val := by omega
  simp [State.writeReg, hrow, hcol]

theorem State.codedLo_getLsbD (s : State) (b : Fin 16) : s.codedLo.getLsbD b.val = s.cb[b.val].coded := by
  have hb : b.val < 25 := by omega
  simp [State.codedLo, hb]

theorem State.codedHi_getLsbD (s : State) (j : Fin 9) : s.codedHi.getLsbD j.val = s.cb[16 + j.val].coded := by
  have hb : 16 + j.val < 25 := by omega
  have hj : j.val < 16 := by omega
  simp [State.codedHi, BitVec.getLsbD_eq_getElem hj, hb]

theorem State.codedHi_reserved (s : State) : s.codedHi.extractLsb' 9 7 = 0#7 := by
  refine BitVec.eq_of_getLsbD_eq fun k hk => ?_
  have hbit : 9 + k < 16 := by omega
  simp [State.codedHi, BitVec.getLsbD_eq_getElem hbit, hk]

theorem State.wpend_getLsbD (s : State) (k : Fin 16) :
    s.wpend.getLsbD k.val = true ↔ s.wc[k].tag = .yWithY2 := by
  simp [State.wpend]

theorem State.wcoded_getLsbD (s : State) (k : Fin 16) : s.wcoded.getLsbD k.val = s.wc[k].coded := by
  simp [State.wcoded]

/-- The read-only flag views ignore a write in every state that is not busy (R36, R49). -/
theorem State.hostWrite_readOnly {s : State} (hb : s.status.busy = false) {a : HAddr} {v : Word}
    (hreg : hostReg a = .wpend ∨ hostReg a = .wcoded) : s.hostWrite a v = .next s := by
  cases hf : s.status.fault
  · rcases hreg with h | h <;> simp [State.hostWrite, State.writeReg, hb, hf, h]
  · simp [State.hostWrite, hf]

/-- Settles O46: the four views bit by bit, and what a write of each does. -/
theorem flagViews : Obligations.FlagViews := by
  intro s v hb
  have hlo : hostReg 0x010#11 = .codedLo := by decide
  have hhi : hostReg 0x011#11 = .codedHi := by decide
  have hpend : hostReg 0x012#11 = .wpend := by decide
  have hcoded : hostReg 0x013#11 = .wcoded := by decide
  simp only [State.hostReadValue_of_not_busy hb, hlo, hhi, hpend, hcoded, State.content]
  refine ⟨s.codedLo_getLsbD, s.codedHi_getLsbD, s.codedHi_reserved, s.wpend_getLsbD, s.wcoded_getLsbD,
    State.hostWrite_readOnly hb (.inl hpend), State.hostWrite_readOnly hb (.inr hcoded), fun hi => ?_, fun hi => ?_⟩
  · exact ⟨_, (State.hostWrite_of_idle hi v hlo (by decide)).1, rfl, fun b => s.writeReg_codedLo v b.val b.isLt⟩
  · exact ⟨_, (State.hostWrite_of_idle hi v hhi (by decide)).1, rfl, fun b => s.writeReg_codedHi v b.val b.isLt⟩

theorem State.codedLo_writeReg (s : State) (v : Word) : (s.writeReg v .codedLo).codedLo = v := by
  refine BitVec.eq_of_getLsbD_eq fun k hk => ?_
  have hbit := (s.writeReg v .codedLo).codedLo_getLsbD ⟨k, hk⟩
  simpa [hk] using hbit

theorem State.codedHi_writeReg (s : State) (v : Word) :
    (s.writeReg v .codedHi).codedHi = v &&& 0x01FF#16 := by
  refine BitVec.eq_of_getLsbD_eq fun k hk => ?_
  interval_cases k <;> simp [State.codedHi]

theorem hostReg_bmode (r : Fin 4) : hostReg (BitVec.ofNat 11 (0x008 + r.val)) = .bmode r := by
  revert r; decide

/-- Settles O45: an idle write stores in the register's element, and the register's word is read from it. -/
theorem hostWriteReadsBack : Obligations.HostWriteReadsBack := by
  intro s v hi
  refine ⟨?_, fun r => ?_, ?_, ?_⟩
  · obtain ⟨hwrite, hread⟩ := State.hostWrite_of_idle hi v (a := 0x002#11) (r := .hdr) (by decide) (by decide)
    exact ⟨_, hwrite, hread.trans (Header.word_ofWord v)⟩
  · obtain ⟨hwrite, hread⟩ := State.hostWrite_of_idle hi v (hostReg_bmode r) (by simp)
    have hmode := s.writeReg_bmode v r
    exact ⟨_, hwrite, hread.trans (State.bmodeWord_eq hmode), hmode⟩
  · obtain ⟨hwrite, hread⟩ := State.hostWrite_of_idle hi v (a := 0x010#11) (r := .codedLo) (by decide) (by decide)
    exact ⟨_, hwrite, hread.trans (s.codedLo_writeReg v), fun b => by simp⟩
  · obtain ⟨hwrite, hread⟩ := State.hostWrite_of_idle hi v (a := 0x011#11) (r := .codedHi) (by decide) (by decide)
    exact ⟨_, hwrite, hread.trans (s.codedHi_writeReg v), fun j => by simp⟩

/-! ### Reset (R40, R148, R149) -/

theorem State.resetCore_words (s : State) (p : PowerUp) : (s.resetCore p).status.word = 0#16 ∧
    (s.resetCore p).seq.word = 0#16 ∧ (s.resetCore p).hdr.word = 0#16 := by
  simp only [State.resetCore]
  decide

theorem State.resetCore_wpend (s : State) (p : PowerUp) : (s.resetCore p).wpend = 0xFFFF#16 := by
  have hall : ∀ k : Fin 16, (s.resetCore p).wpend.getLsbD k.val = true := fun k =>
    (State.wpend_getLsbD _ k).mpr (by simp [State.resetCore])
  refine BitVec.eq_of_getLsbD_eq fun k hk => (hall ⟨k, hk⟩).trans ?_
  interval_cases k <;> rfl

/-- The samples come up as the reset event says, in host address order. -/
theorem State.resetCore_read (s : State) (p : PowerUp) (j : Fin 384) :
    (s.resetCore p).px.read (0x600 + j.val) = p.px[j] := by
  have hread := Memory.read_ofBytes (a := Memory.firstAddr) (l := p.px.toList)
    (by simp [Memory.firstAddr, Memory.endAddr]) j.val (by simp)
  simpa [State.resetCore, Memory.firstAddr] using hread

/-- Settles O51: the fields of the state a reset event answers. -/
theorem resetEffect : Obligations.ResetEffect := by
  intro s p rest hs
  have hstep : step s = .next (({ s with events := rest } : State).resetCore p) := by simp only [step, hs]
  obtain ⟨hstatus, hseq, hhdr⟩ := State.resetCore_words { s with events := rest } p
  refine ⟨_, hstep, State.resetCore_inv _ p, rfl, hstatus, hseq, rfl, hhdr, fun n => ?_, fun b => ?_, fun k => ?_,
    State.resetCore_wpend _ p, rfl, rfl, State.resetCore_read _ p⟩ <;> simp [State.resetCore]

/-- Settles O52: the model's reset state is a reset whose data stores come up zero. -/
theorem resetStateIsLegal : Obligations.ResetStateIsLegal := by
  unfold Obligations.ResetStateIsLegal
  rw [reset_eq_resetCore_zero]
  exact State.resetCore_inv _ _

end Sys2Proof.Machine
end

section
/-! PROOFS about the memories of 20_memory.md seen from the host: the address map, what a read returns, and what a write
changes and leaves alone. -/

namespace Sys2Proof.Machine

/-! ### Reads (R47) -/

/-- The registers that read truly at any time do so while busy too (R47 (b)). -/
theorem State.hostReadValue_of_alwaysTrue (s : State) {a : HAddr} (h : (hostReg a).alwaysTrue = true) :
    s.hostReadValue a = s.content (hostReg a) := by
  simp [State.hostReadValue, State.readIsFree, h]

/-- Settles O41: no field of the core is written, and a read that is not free is of the content of its register. -/
theorem hostReadReturnsTheContent : Obligations.HostReadReturnsTheContent := by
  intro s a
  refine ⟨rfl, fun hb => State.hostReadValue_of_not_busy hb a, fun hb ha => ?_, s.hostReadValue_of_alwaysTrue rfl,
    s.hostReadValue_of_alwaysTrue rfl, s.hostReadValue_of_alwaysTrue rfl, s.hostReadValue_of_alwaysTrue rfl⟩
  subst ha
  exact State.hostReadValue_of_not_busy hb _

/-! ### The address map (R42 to R45, R49) -/

/-- The host address of a register; a reserved address has none of its own. -/
def HostReg.addr : HostReg → Nat
  | .cmd => 0x000
  | .status => 0x001
  | .hdr => 0x002
  | .finfo => 0x003
  | .seq => 0x004
  | .id => 0x005
  | .bmode r => 0x008 + r.val
  | .codedLo => 0x010
  | .codedHi => 0x011
  | .wpend => 0x012
  | .wcoded => 0x013
  | .cbCoef b i => 0x200 + 16 * b.val + i.val
  | .wcCoef k i => 0x400 + 16 * k.val + i.val
  | .sample a => a
  | .reserved => 0

theorem HostReg.addr_hostReg {a : HAddr} : hostReg a ≠ .reserved → (hostReg a).addr = a.toNat := by
  fun_cases hostReg a
  case case15 => exact fun h => absurd rfl h
  all_goals
    simp only [HostReg.addr]
    omega

/-- Two addresses that name the same register are the same, unless they are reserved. -/
theorem eq_of_hostReg_eq {a a' : HAddr} (h : hostReg a = hostReg a') (hres : hostReg a ≠ .reserved) : a = a' := by
  have hres' : hostReg a' ≠ .reserved := h ▸ hres
  rw [← BitVec.toNat_inj, ← HostReg.addr_hostReg hres, ← HostReg.addr_hostReg hres', h]

theorem hostReg_cbCoef {a : HAddr} {b : Fin 25} {i : Fin 16} (h : a.toNat = 0x200 + 16 * b.val + i.val) :
    hostReg a = .cbCoef b i := by
  fun_cases hostReg a
  case case12 =>
    simp only [HostReg.cbCoef.injEq, Fin.ext_iff]
    omega
  all_goals omega

theorem hostReg_wcCoef {a : HAddr} {k i : Fin 16} (h : a.toNat = 0x400 + 16 * k.val + i.val) :
    hostReg a = .wcCoef k i := by
  fun_cases hostReg a
  case case13 =>
    simp only [HostReg.wcCoef.injEq, Fin.ext_iff]
    omega
  all_goals omega

theorem hostReg_sample {a : HAddr} (h : 0x600 ≤ a.toNat ∧ a.toNat < 0x780) : hostReg a = .sample a.toNat := by
  fun_cases hostReg a
  case case14 => rfl
  all_goals omega

theorem hostReg_reserved {a : HAddr} (h : a.toNat = 0x006 ∨ a.toNat = 0x007 ∨ (0x00C ≤ a.toNat ∧ a.toNat ≤ 0x00F) ∨
    (0x014 ≤ a.toNat ∧ a.toNat ≤ 0x1FF) ∨ (0x390 ≤ a.toNat ∧ a.toNat ≤ 0x3FF) ∨
    (0x500 ≤ a.toNat ∧ a.toNat ≤ 0x5FF) ∨ 0x780 ≤ a.toNat) : hostReg a = .reserved := by
  fun_cases hostReg a
  case case15 => rfl
  all_goals omega

/-! ### Writes that change nothing (R49) -/

/-- A register that no host write changes (R36, R45, R49). -/
def HostReg.ignoresWrites : HostReg → Bool
  | .cmd => false
  | .status => true
  | .hdr => false
  | .finfo => true
  | .seq => true
  | .id => true
  | .bmode _ => false
  | .codedLo => false
  | .codedHi => false
  | .wpend => true
  | .wcoded => true
  | .cbCoef _ _ => false
  | .wcCoef _ _ => true
  | .sample _ => false
  | .reserved => true

theorem State.writeReg_of_ignoresWrites (s : State) (v : Word) {r : HostReg} :
    r.ignoresWrites = true → s.writeReg v r = s := by
  cases r <;> simp [HostReg.ignoresWrites, State.writeReg]

theorem ignoresWrites_of_readOnly {a : HAddr} (h : a.toNat = 0x001 ∨ a.toNat = 0x003 ∨ a.toNat = 0x004 ∨
    a.toNat = 0x005 ∨ a.toNat = 0x012 ∨ a.toNat = 0x013 ∨ (0x400 ≤ a.toNat ∧ a.toNat ≤ 0x4FF)) :
    (hostReg a).ignoresWrites = true := by
  fun_cases hostReg a
  case case2 | case4 | case5 | case6 | case10 | case11 | case13 => rfl
  all_goals omega

/-- A host write that is not busy leaves a register that ignores writes, and all else, as it was (R49). -/
theorem State.hostWrite_ignored {s : State} (hb : s.status.busy = false) {a : HAddr} {v : Word}
    (h : (hostReg a).ignoresWrites = true) : s.hostWrite a v = .next s := by
  rcases s.hostWrite_cases a v with ⟨-, e⟩ | ⟨-, hbusy, -⟩ | ⟨-, hcmd, -⟩ | ⟨-, -, e⟩
  · exact e
  · cases hb.symm.trans hbusy
  · cases (congrArg HostReg.ignoresWrites hcmd).symm.trans h
  · rw [e, s.writeReg_of_ignoresWrites v h]

/-- A host write depends on the word only by what an idle core stores of it. -/
theorem State.hostWrite_congr {s : State} {a : HAddr} {r : HostReg} {v v' : Word} (hreg : hostReg a = r)
    (hne : r ≠ .cmd) (h : s.writeReg v r = s.writeReg v' r) : s.hostWrite a v = s.hostWrite a v' := by
  simp only [State.hostWrite, hreg, if_neg hne, h]

theorem State.hostWrite_of_busy {s : State} {a : HAddr} {v : Word} (hf : s.status.fault = false)
    (hb : s.status.busy = true) : s.hostWrite a v = .next (s.raiseFault .hostWriteBusy (a.setWidth 16)) := by
  simp [State.hostWrite, hf, hb]

/-! ### Reserved bits (R22, R36, R44, R49) -/

theorem Header.word_reserved (h : Header) : h.word &&& 0xF00C#16 = 0#16 := by
  refine BitVec.eq_of_getLsbD_eq fun k hk => ?_
  interval_cases k <;> simp [Header.word]

theorem State.codedHi_and_reserved (s : State) : s.codedHi &&& 0xFE00#16 = 0#16 := by
  refine BitVec.eq_of_getLsbD_eq fun k hk => ?_
  interval_cases k <;> simp [State.codedHi]

theorem State.content_sample_reserved (s : State) (a : Nat) : (s.content (.sample a)).extractLsb' 8 8 = 0#8 := by
  refine BitVec.eq_of_getLsbD_eq fun k hk => ?_
  simp [State.content]

theorem Header.ofWord_and (v : Word) : Header.ofWord (v &&& 0x0FF3#16) = Header.ofWord v := by
  simp only [Header.ofWord, Header.mk.injEq]
  refine ⟨by simp, by simp, BitVec.eq_of_getLsbD_eq fun k hk => ?_, BitVec.eq_of_getLsbD_eq fun k hk => ?_⟩ <;>
    interval_cases k <;> simp

theorem State.writeReg_codedHi_and (s : State) (v : Word) :
    s.writeReg (v &&& 0x01FF#16) .codedHi = s.writeReg v .codedHi := by
  have hbit : ∀ j, j < 9 → (v &&& 0x01FF#16).getLsbD j = v.getLsbD j := by
    intro j hj
    interval_cases j <;> simp
  have hcb : (s.writeReg (v &&& 0x01FF#16) .codedHi).cb = (s.writeReg v .codedHi).cb := by
    ext1 b hb
    rw [writeReg_codedHi, writeReg_codedHi, hbit (b - 16) (by omega)]
  exact congrArg (fun cb => { s with cb := cb }) hcb

theorem State.writeReg_sample_and (s : State) (v : Word) (a : Nat) :
    s.writeReg (v &&& 0x00FF#16) (.sample a) = s.writeReg v (.sample a) := by
  have hbyte : (v &&& 0x00FF#16).setWidth 8 = v.setWidth 8 := by
    refine BitVec.eq_of_getLsbD_eq fun k hk => ?_
    interval_cases k <;> simp
  simp only [State.writeReg, hbyte]

/-- Settles O43: the reserved and read-only addresses by the map, then the reserved bits register by register. -/
theorem reservedReadsZeroIgnoresWrites : Obligations.ReservedReadsZeroIgnoresWrites := by
  intro s a v n unmapped readOnly
  have hignored : unmapped ∨ readOnly → (hostReg a).ignoresWrites = true := by
    rintro (h | h)
    · rw [hostReg_reserved h]
      rfl
    · exact ignoresWrites_of_readOnly h
  obtain ⟨-, -, -, -, -, hstatus⟩ := s.status.word_fields
  obtain ⟨-, -, hseq⟩ := s.seq.word_fields
  refine ⟨fun h hb => ?_, fun h hb => State.hostWrite_ignored hb (hignored h),
    fun _ hf hb => State.hostWrite_of_busy hf hb, s.hdr.word_reserved, s.codedHi_and_reserved, hstatus,
    hseq, s.content_sample_reserved n, ?_, ?_, fun hlo hhi => ?_⟩
  · rw [State.hostReadValue_of_not_busy hb, hostReg_reserved h, State.content]
  · exact State.hostWrite_congr (r := .hdr) (by decide) (by decide) (by simp only [State.writeReg, Header.ofWord_and])
  · exact State.hostWrite_congr (r := .codedHi) (by decide) (by decide) (s.writeReg_codedHi_and v).symm
  · exact State.hostWrite_congr (hostReg_sample ⟨hlo, Nat.lt_succ_of_le hhi⟩) (by simp) (s.writeReg_sample_and v _).symm

/-! ### The data windows (R43 to R45) -/

theorem sampleAddr_range {p : Plane} {x y : Nat} (hx : x < planeWidth p) (hy : y < planeWidth p) :
    Memory.firstAddr ≤ sampleAddr p x y ∧ sampleAddr p x y < Memory.endAddr := by
  cases p <;> simp only [planeWidth, sampleAddr, planeBase, Memory.firstAddr, Memory.endAddr] at * <;> omega

theorem toNat_ofNat_haddr {n : Nat} (h : n < 0x800) : (BitVec.ofNat 11 n).toNat = n := Nat.mod_eq_of_lt h

theorem State.writeReg_cbCoef (s : State) (v : Word) (b b' : Fin 25) (i i' : Fin 16) :
    (s.writeReg v (.cbCoef b i)).cb[b'].coded = s.cb[b'].coded ∧
      (s.writeReg v (.cbCoef b i)).cb[b'].coef[i'] = if b' = b ∧ i' = i then v else s.cb[b'].coef[i'] := by
  by_cases hb : b' = b
  · subst hb
    by_cases hi : i' = i
    · simp [State.writeReg, hi]
    · have hne : i.val ≠ i'.val := fun e => hi (Fin.ext e.symm)
      simp [State.writeReg, hi, hne]
  · have hne : b.val ≠ b'.val := fun e => hb (Fin.ext e.symm)
    simp [State.writeReg, hb, hne]

/-- Settles O42: each window's addresses by the map, then the store the register stands for. -/
theorem dataWindows : Obligations.DataWindows := by
  intro s v
  refine ⟨fun b i => ?_, fun p x y hx hy => ?_, fun k i => ?_⟩ <;> intro a
  · have hreg : hostReg a = .cbCoef b i := hostReg_cbCoef (toNat_ofNat_haddr (by omega))
    refine ⟨fun hb => ?_, fun hi => ?_⟩
    · rw [State.hostReadValue_of_not_busy hb, hreg, State.content]
    · exact ⟨_, (State.hostWrite_of_idle hi v hreg (by simp)).1, rfl, fun b' i' => s.writeReg_cbCoef v b b' i i'⟩
  · obtain ⟨hlo, hhi⟩ := sampleAddr_range hx hy
    have ha : a.toNat = sampleAddr p x y := toNat_ofNat_haddr (hhi.trans (by decide))
    have hreg : hostReg a = .sample (sampleAddr p x y) := ha ▸ hostReg_sample (ha ▸ ⟨hlo, hhi⟩)
    refine ⟨fun hb => ?_, fun hi => ?_⟩
    · rw [State.hostReadValue_of_not_busy hb, hreg, State.content, State.memRead]
    · exact ⟨_, (State.hostWrite_of_idle hi v hreg (by simp)).1, rfl, Memory.read_write_same,
        fun a' hne => Memory.read_write_of_ne hne⟩
  · have hreg : hostReg a = .wcCoef k i := hostReg_wcCoef (toNat_ofNat_haddr (by omega))
    refine ⟨fun hb => ?_, fun hi => ?_⟩
    · rw [State.hostReadValue_of_not_busy hb, hreg, State.content]
    · exact State.hostWrite_ignored (State.isIdle_iff.mp hi).1 (by rw [hreg]; rfl)

/-! ### One element at a time (R48) -/

@[simp] theorem State.writeReg_im (s : State) (v : Word) (r : HostReg) : (s.writeReg v r).im = s.im := by
  cases r <;> simp only [State.writeReg]

@[simp] theorem State.writeReg_cur (s : State) (v : Word) (r : HostReg) : (s.writeReg v r).cur = s.cur := by
  cases r <;> simp only [State.writeReg]

/-- A write of one row of `BMODE` leaves the other rows' words alone (R23). -/
theorem State.bmodeWord_writeReg_of_ne {s : State} {v : Word} {r q : Fin 4} (h : r ≠ q) :
    (s.writeReg v (.bmode r)).bmodeWord q = s.bmodeWord q := by
  have hmode : ∀ c : Fin 4, (s.writeReg v (.bmode r)).bmode[4 * q.val + c.val] = s.bmode[4 * q.val + c.val] := by
    intro c
    have hrow : (4 * q.val + c.val) / 4 ≠ r.val := fun e => h (Fin.ext (by omega))
    simp [State.writeReg, hrow]
  simp only [State.bmodeWord, hmode]

/-- `CODED_LO` shows the coded flags of blocks 0 to 15 only (R36). -/
theorem State.codedLo_congr {s t : State} (h : ∀ b : Fin 16, t.cb[b.val].coded = s.cb[b.val].coded) :
    t.codedLo = s.codedLo :=
  BitVec.eq_of_getLsbD_eq fun k hk => by
    rw [t.codedLo_getLsbD ⟨k, hk⟩, s.codedLo_getLsbD ⟨k, hk⟩, h ⟨k, hk⟩]

/-- `CODED_HI` shows the coded flags of blocks 16 to 24 only (R36). -/
theorem State.codedHi_congr {s t : State} (h : ∀ j : Fin 9, t.cb[16 + j.val].coded = s.cb[16 + j.val].coded) :
    t.codedHi = s.codedHi := by
  refine BitVec.eq_of_getLsbD_eq fun k hk => ?_
  by_cases hj : k < 9
  · rw [t.codedHi_getLsbD ⟨k, hj⟩, s.codedHi_getLsbD ⟨k, hj⟩, h ⟨k, hj⟩]
  · simp [State.codedHi, BitVec.getLsbD_eq_getElem hk, hj]

theorem State.content_writeReg_cbCoef {s : State} {v : Word} {b : Fin 25} {i : Fin 16} {r' : HostReg}
    (h : .cbCoef b i ≠ r') : (s.writeReg v (.cbCoef b i)).content r' = s.content r' := by
  have hcoded : ∀ b' : Fin 25, (s.writeReg v (.cbCoef b i)).cb[b'].coded = s.cb[b'].coded :=
    fun b' => (s.writeReg_cbCoef v b b' i 0).1
  cases r' with
  | codedLo => exact codedLo_congr fun b' => hcoded ⟨b'.val, by omega⟩
  | codedHi => exact codedHi_congr fun j => hcoded ⟨16 + j.val, by omega⟩
  | cbCoef b' i' =>
    have hne : ¬ (b' = b ∧ i' = i) := fun e => h (by rw [e.1, e.2])
    exact (s.writeReg_cbCoef v b b' i i').2.trans (if_neg hne)
  | _ => rfl

/-- A write of a register changes the content of no other register. -/
theorem State.content_writeReg_of_ne {s : State} {v : Word} {r r' : HostReg} (h : r ≠ r') :
    (s.writeReg v r).content r' = s.content r' := by
  cases r with
  | hdr => cases r' with
    | hdr => contradiction
    | _ => rfl
  | bmode r => cases r' with
    | bmode q => exact bmodeWord_writeReg_of_ne fun e => h (by rw [e])
    | _ => simp only [content, codedLo, codedHi, wpend, wcoded, writeReg]
  | codedLo => cases r' with
    | codedLo => contradiction
    | codedHi => exact codedHi_congr fun j => by simp
    | cbCoef b i => simp [content]
    | _ => simp only [content, bmodeWord, wpend, wcoded, writeReg]
  | codedHi => cases r' with
    | codedHi => contradiction
    | codedLo => exact codedLo_congr fun b => by simp
    | cbCoef b i => simp [content]
    | _ => simp only [content, bmodeWord, wpend, wcoded, writeReg]
  | cbCoef b i => exact content_writeReg_cbCoef h
  | sample a => cases r' with
    | sample a' =>
      have hne : a' ≠ a := fun e => h (by rw [e])
      simp only [content, writeReg, Memory.read_write_of_ne hne]
    | _ => rfl
  | _ => rfl

/-- Settles O44: two addresses name two registers, unless both are reserved. -/
theorem hostWriteChangesOneElement : Obligations.HostWriteChangesOneElement := by
  intro s a a' v hi ha hne
  have hcmd : hostReg a ≠ .cmd := fun h => ha (eq_of_hostReg_eq (a' := 0x000#11) h (by simp [h]))
  have hbusy : s.status.busy = false := (State.isIdle_iff.mp hi).1
  refine ⟨_, (State.hostWrite_of_idle hi v rfl hcmd).1, ?_, by simp, by simp, by simp, by simp⟩
  rw [State.hostReadValue_of_not_busy (by simpa using hbusy), State.hostReadValue_of_not_busy hbusy]
  by_cases hres : hostReg a = .reserved
  · rw [s.writeReg_of_ignoresWrites v (by rw [hres]; rfl)]
  · exact State.content_writeReg_of_ne fun h => hne (eq_of_hostReg_eq h hres).symm

end Sys2Proof.Machine
end

section
/-! PROOFS about who reaches the memories of 20_memory.md during a run: inputs that stay while the core is busy (R56),
and micro-ops whose order does not matter, because each reads and writes samples of its own region only (R57). -/

namespace Sys2Proof.Machine

/-! ### Inputs while busy (R56, R98 (c), R157) -/

theorem State.hostWrite_of_busy_keeps_inputs {s t : State} {a : HAddr} {v : Word} (hb : s.status.busy = true)
    (h : s.hostWrite a v = .next t) : t.ctx = s.ctx ∧ t.cb = s.cb ∧ t.hdr = s.hdr ∧ t.bmode = s.bmode := by
  rcases s.hostWrite_cases a v with ⟨-, e⟩ | ⟨-, -, e⟩ | ⟨hi, -⟩ | ⟨hi, -⟩
  · obtain rfl := Host.Outcome.next.inj (e.symm.trans h)
    simp
  · obtain rfl := Host.Outcome.next.inj (e.symm.trans h)
    simp
  all_goals simp [hb] at hi

theorem coreStep_keeps_run_inputs {s t : State} (h : coreStep s = .next t) :
    t.ctx = s.ctx ∧ t.cb = s.cb ∧ t.hdr = s.hdr ∧ t.bmode = s.bmode := by
  obtain ⟨hcb, hhdr, hbmode, -, hctx, -⟩ := coreStepKeepsTheInputs _ _ h
  exact ⟨hctx, hcb, hhdr, hbmode⟩

/-- Settles O28: by the event that is next. A busy core answers a write by a fault and drops a change of context. -/
theorem inputsAreStableWhileBusy : Obligations.InputsAreStableWhileBusy := by
  intro s t hb ht
  rcases step_cases s with ⟨-, e⟩ | ⟨rest, -, e⟩ | ⟨a, rest, -, e⟩ | ⟨a, v, rest, -, e⟩ | ⟨p, rest, hev, e⟩ |
    ⟨c, rest, -, e⟩ <;> rw [e] at ht
  · exact (coreStep_keeps_run_inputs ht).imp_right fun hkeep _ => hkeep
  · exact (coreStep_keeps_run_inputs ht).imp_right fun hkeep _ => hkeep
  · obtain rfl := Host.Outcome.next.inj ht
    simp
  · exact (State.hostWrite_of_busy_keeps_inputs (s := { s with events := rest }) hb ht).imp_right fun hkeep _ => hkeep
  · obtain rfl := Host.Outcome.next.inj ht
    exact ⟨by simp only [State.resetCore], fun hno => absurd (congrArg List.head? hev) (hno p)⟩
  · obtain rfl := Host.Outcome.next.inj ht
    simp [hb]

/-! ### Operations that reach a region of the raster only -/

/-- Two canonical memories that read the same at an address still do after the same writes. -/
theorem Memory.read_writeMany_congr {m m' : Memory} {cells : List Host.Cell} {a : Nat} (hm : m.wf = true)
    (hm' : m'.wf = true) (hc : ∀ c ∈ cells, firstAddr ≤ c.1 ∧ c.1 < endAddr) (h : m.read a = m'.read a) :
    (m.writeMany cells).read a = (m'.writeMany cells).read a := by
  induction cells generalizing m m' with
  | nil => exact h
  | cons c rest ih =>
    obtain ⟨hlo, hhi⟩ := hc c (by simp)
    refine ih (write_wf hm hlo hhi) (write_wf hm' hlo hhi) (fun d hd => hc d (by simp [hd])) ?_
    rw [read_write hm, read_write hm', h]

/-- An operation taking the raster `m` to `n`, and another time `m'` to `n'`, writes only samples of the region `P`,
and what it writes there depends on no sample outside it. -/
structure Memory.LocalTo (P : Nat → Prop) (m n m' n' : Memory) : Prop where
  frame : ∀ a, ¬ P a → n.read a = m.read a
  frame' : ∀ a, ¬ P a → n'.read a = m'.read a
  congr : (∀ a, P a → m.read a = m'.read a) → ∀ a, P a → n.read a = n'.read a

theorem Memory.LocalTo.refl (P : Nat → Prop) (m m' : Memory) : LocalTo P m m m' m' :=
  ⟨fun _ _ => rfl, fun _ _ => rfl, fun h => h⟩

theorem Memory.LocalTo.mono {P Q : Nat → Prop} {m n m' n' : Memory} (h : LocalTo P m n m' n')
    (hPQ : ∀ a, P a → Q a) : LocalTo Q m n m' n' where
  frame a ha := h.frame a fun hP => ha (hPQ a hP)
  frame' a ha := h.frame' a fun hP => ha (hPQ a hP)
  congr heq a ha := by
    by_cases hP : P a
    · exact h.congr (fun b hb => heq b (hPQ b hb)) a hP
    · rw [h.frame a hP, h.frame' a hP, heq a ha]

/-- Writes inside a region, the cells depending on no sample outside it. -/
theorem Memory.LocalTo.writeMany {P : Nat → Prop} {m m' : Memory} {cells cells' : List Host.Cell} (hm : m.wf = true)
    (hm' : m'.wf = true) (hP : ∀ a, P a → firstAddr ≤ a ∧ a < endAddr) (hc : ∀ c ∈ cells, P c.1)
    (hc' : ∀ c ∈ cells', P c.1) (heq : (∀ a, P a → m.read a = m'.read a) → cells = cells') :
    LocalTo P m (m.writeMany cells) m' (m'.writeMany cells') where
  frame a ha := read_writeMany_of_not_mem fun c h e => ha (e ▸ hc c h)
  frame' a ha := read_writeMany_of_not_mem fun c h e => ha (e ▸ hc' c h)
  congr h a ha := by
    rw [← heq h]
    exact read_writeMany_congr hm hm' (fun c hmem => hP _ (hc c hmem)) (h a ha)

/-- Two operations local to disjoint regions leave the same samples in either order. -/
theorem Memory.LocalTo.comm {P Q : Nat → Prop} {m n₁ n₂ k₁ k₂ : Memory} (hdisj : ∀ a, P a → ¬ Q a)
    (hp : LocalTo P m n₁ k₁ k₂) (hq : LocalTo Q m k₁ n₁ n₂) (a : Nat) : n₂.read a = k₂.read a := by
  by_cases hP : P a
  · have hkeep : ∀ b, P b → m.read b = k₁.read b := fun b hb => (hq.frame b (hdisj b hb)).symm
    rw [hq.frame' a (hdisj a hP), hp.congr hkeep a hP]
  · rw [hp.frame' a hP]
    by_cases hQ : Q a
    · have hkeep : ∀ b, Q b → m.read b = n₁.read b := fun b hb => (hp.frame b fun h => hdisj b h hb).symm
      exact (hq.congr hkeep a hQ).symm
    · rw [hq.frame' a hQ, hp.frame a hP, hq.frame a hQ]

/-! ### The regions of the micro-ops (R28, R57) -/

/-- An address of a luma sample (R44). -/
def inLuma (a : Nat) : Prop := 0x600 ≤ a ∧ a < 0x700

/-- An address of a chroma sample (R44). -/
def inChroma (a : Nat) : Prop := 0x700 ≤ a ∧ a < 0x780

theorem inLuma_range {a : Nat} (h : inLuma a) : Memory.firstAddr ≤ a ∧ a < Memory.endAddr := by
  obtain ⟨hlo, hhi⟩ := h
  exact ⟨hlo, hhi.trans (by decide)⟩

theorem inChroma_range {a : Nat} (h : inChroma a) : Memory.firstAddr ≤ a ∧ a < Memory.endAddr := by
  obtain ⟨hlo, hhi⟩ := h
  exact ⟨le_trans (by decide) hlo, hhi⟩

theorem inLuma_of_inBlock {col row : BitVec 2} {a : Nat} (h : inBlock .y col.toNat row.toNat a) : inLuma a := by
  obtain ⟨j, rfl⟩ := h
  simp only [inLuma, blockAddr, sampleAddr, planeBase, planeWidth]
  omega

theorem inChroma_of_inBlock {p : Plane} {col row a : Nat} (hp : p ≠ .y) (hc : col < 2) (hr : row < 2)
    (h : inBlock p col row a) : inChroma a := by
  obtain ⟨j, rfl⟩ := h
  cases p
  · contradiction
  all_goals
    simp only [inChroma, blockAddr, sampleAddr, planeBase, planeWidth]
    omega

/-- Two different luma sub-blocks share no sample (R28). -/
theorem inBlock_y_disjoint {c r c' r' : BitVec 2} (hne : c ≠ c' ∨ r ≠ r') {a : Nat}
    (h : inBlock .y c.toNat r.toNat a) : ¬ inBlock .y c'.toNat r'.toNat a := by
  rintro ⟨j', e⟩
  obtain ⟨j, rfl⟩ := h
  simp only [blockAddr, sampleAddr, planeBase, planeWidth] at e
  bv_omega

/-- Overwriting a sub-block is local to it, whatever the values, as long as they depend on it only. -/
theorem localTo_blockCells {m m' : Memory} {p : Plane} {col row : Nat} {f f' : Fin 16 → Byte} (hm : m.wf = true)
    (hm' : m'.wf = true)
    (hr : ∀ j, Memory.firstAddr ≤ blockAddr p col row j ∧ blockAddr p col row j < Memory.endAddr)
    (hf : (∀ a, inBlock p col row a → m.read a = m'.read a) → f = f') :
    Memory.LocalTo (inBlock p col row) m (m.writeMany (blockCells p col row f))
      m' (m'.writeMany (blockCells p col row f')) := by
  have hmem : ∀ g, ∀ c ∈ blockCells p col row g, inBlock p col row c.1 := by
    intro g c hc
    obtain ⟨j, rfl⟩ := mem_blockCells.mp hc
    exact ⟨j, rfl⟩
  refine Memory.LocalTo.writeMany hm hm' ?_ (hmem f) (hmem f') fun h => by rw [hf h]
  rintro a ⟨j, rfl⟩
  exact hr j

/-- An `IDCT` reads and writes its target sub-block only, and whether it faults is up to its operand (R90, R91). -/
theorem State.idctInto_localTo {s s' : State} {word : Word} {op : Coefs × Tag} {p : Plane} {col row : Nat}
    (hw : s.px.wf = true) (hw' : s'.px.wf = true)
    (hr : ∀ j, Memory.firstAddr ≤ blockAddr p col row j ∧ blockAddr p col row j < Memory.endAddr) :
    Memory.LocalTo (inBlock p col row) s.px (s.idctInto word op p col row).px
      s'.px (s'.idctInto word op p col row).px := by
  rcases s.idctInto_cases word op p col row with ⟨h1, h2, e⟩ | ⟨h, e⟩ <;>
    rcases s'.idctInto_cases word op p col row with ⟨h1', h2', e'⟩ | ⟨h', e'⟩
  · rw [e, e', raiseFault_px, raiseFault_px]
    exact .refl _ _ _
  · exact absurd h' (by simp [h1, h2])
  · exact absurd h (by simp [h1', h2'])
  · simp only [e, e', accumulated]
    refine localTo_blockCells hw hw' hr fun hread => funext fun j => ?_
    rw [hread _ ⟨j, rfl⟩]

/-! ### Chroma micro-ops -/

/-- What a chroma micro-op is: `PREDC`, an `IDCT` of one of the blocks 16 to 23 into a sub-block of its plane, or a
term with no block (R64, R95). -/
theorem exec_chroma_cases {i : Instr} (hi : isChromaOp i = true) :
    i = .predc ∨ (∀ s, exec i s = .refused .noSuchBlock) ∨
    ∃ (word : Word) (b : Fin 25) (p : Plane) (col row : Nat), 16 ≤ b.val ∧ b.val < 24 ∧ p ≠ .y ∧ col < 2 ∧ row < 2 ∧
      ∀ s, exec i s = .next (s.idctInto word (s.operandCB b) p col row) := by
  cases i with
  | predc => exact .inl rfl
  | idctU col row =>
    right
    by_cases hg : col.toNat < 2 ∧ row.toNat < 2
    · refine .inr ⟨encode (.idctU col row), ⟨16 + 2 * row.toNat + col.toNat, by omega⟩, .u, col.toNat, row.toNat,
        by simp only; omega, by simp only; omega, by decide, hg.1, hg.2, fun s => ?_⟩
      simp only [exec, execIdctU, uBlock, dif_pos hg]
    · exact .inl fun s => by simp only [exec, execIdctU, uBlock, dif_neg hg]
  | idctV col row =>
    right
    by_cases hg : col.toNat < 2 ∧ row.toNat < 2
    · refine .inr ⟨encode (.idctV col row), ⟨20 + 2 * row.toNat + col.toNat, by omega⟩, .v, col.toNat, row.toNat,
        by simp only; omega, by simp only; omega, by decide, hg.1, hg.2, fun s => ?_⟩
      simp only [exec, execIdctV, vBlock, dif_pos hg]
    · exact .inl fun s => by simp only [exec, execIdctV, vBlock, dif_neg hg]
  | _ => cases hi

/-- The second state is the first but for samples, scratch and the record of requests. -/
def State.SameButSamples (s t : State) : Prop := t = { s with px := t.px, im := t.im, preqs := t.preqs }

theorem State.SameButSamples.trans {s t u : State} (ht : s.SameButSamples t) (hu : t.SameButSamples u) :
    s.SameButSamples u := by
  rw [SameButSamples, hu, ht]

/-- States that share all but those three, and the samples too, differ in scratch and record only. -/
theorem State.SameButSamples.eq_of_px_eq {s t u : State} (ht : s.SameButSamples t) (hu : s.SameButSamples u)
    (hpx : t.px = u.px) : t = { u with im := t.im, preqs := t.preqs } := by
  rw [hu, ht, hpx]

/-- An `IDCT` of a final operand raises no fault: it changes samples and `IM` only (R91, R92). -/
theorem State.sameButSamples_idctInto (s : State) (word : Word) {op : Coefs × Tag} (p : Plane) (col row : Nat)
    (hop : op.2 = .yWithoutY2 ∨ op.2 = .uv) : s.SameButSamples (s.idctInto word op p col row) := by
  rcases s.idctInto_cases word op p col row with ⟨hy, huv, -⟩ | ⟨-, e⟩
  · exact absurd hop (by simp [hy, huv])
  · rw [e, SameButSamples]

/-- A chroma micro-op changes samples, scratch and record only: its `IDCT` is of a block whose tag is `UV`, which raises
no fault (R21, R91). -/
theorem exec_chroma_sameButSamples {i : Instr} (hi : isChromaOp i = true) {s t : State} (h : exec i s = .next t) :
    s.SameButSamples t := by
  rcases exec_chroma_cases hi with rfl | e | ⟨word, b, p, col, row, hlo, hhi, -, -, -, e⟩
  · obtain rfl := Host.Outcome.next.inj h
    simp [State.SameButSamples, State.writeSamples, State.request]
  · cases (e s).symm.trans h
  · obtain rfl := Host.Outcome.next.inj ((e s).symm.trans h)
    have htag : s.tagCB b = .uv := by simp [State.tagCB, hlo, hhi.ne]
    exact s.sameButSamples_idctInto word p col row (.inr htag)

theorem State.lumaTag_congr {s s' : State} (hcb : s'.cb = s.cb) (hhdr : s'.hdr = s.hdr) :
    s'.lumaTag = s.lumaTag := by
  unfold State.lumaTag State.y2Coded
  rw [hcb, hhdr]

/-- A `CB` operand is up to `CB` and `HDR` (R21, R95). -/
theorem State.operandCB_congr {s s' : State} {b : Fin 25} (hcb : s'.cb = s.cb) (hhdr : s'.hdr = s.hdr) :
    s'.operandCB b = s.operandCB b := by
  unfold State.operandCB State.tagCB
  rw [hcb, lumaTag_congr hcb hhdr]

theorem State.operandWC_congr {s s' : State} {k : Fin 16} (hwc : s'.wc = s.wc) : s'.operandWC k = s.operandWC k := by
  unfold State.operandWC
  rw [hwc]

/-- A chroma micro-op's samples depend on `CB`, `HDR`, the context and chroma samples only. -/
theorem exec_chroma_localTo {i : Instr} (hi : isChromaOp i = true) {s t s' t' : State} (h : exec i s = .next t)
    (h' : exec i s' = .next t') (hw : s.px.wf = true) (hw' : s'.px.wf = true) (hcb : s'.cb = s.cb)
    (hhdr : s'.hdr = s.hdr) (hctx : s'.ctx = s.ctx) : Memory.LocalTo inChroma s.px t.px s'.px t'.px := by
  rcases exec_chroma_cases hi with rfl | e | ⟨word, b, p, col, row, hlo, hhi, hp, hcol, hrow, e⟩
  · obtain rfl := Host.Outcome.next.inj h
    obtain rfl := Host.Outcome.next.inj h'
    have hin : ∀ c ∈ planeCells .u (Config.predC s.hdr.cmode s.ctx).1 ++
        planeCells .v (Config.predC s.hdr.cmode s.ctx).2, inChroma c.1 := by
      intro c hc
      rcases List.mem_append.mp hc with hc | hc <;> obtain ⟨j, rfl⟩ := mem_planeCells.mp hc <;>
        simp only [planeBase, inChroma] <;> omega
    simp only [State.writeSamples_px, State.request_px, hhdr, hctx]
    exact .writeMany hw hw' (fun _ => inChroma_range) hin hin fun _ => rfl
  · cases (e s).symm.trans h
  · obtain rfl := Host.Outcome.next.inj ((e s).symm.trans h)
    obtain rfl := Host.Outcome.next.inj ((e s').symm.trans h')
    have hblock := fun a => inChroma_of_inBlock (a := a) hp hcol hrow
    rw [State.operandCB_congr hcb hhdr]
    exact (State.idctInto_localTo hw hw' fun j => inChroma_range (hblock _ ⟨j, rfl⟩)).mono hblock

/-! ### Luma micro-ops -/

theorem State.SameButSamples.idctInto {s s' : State} (h : s.SameButSamples s') (word : Word) (op : Coefs × Tag)
    (p : Plane) (col row : Nat) : (s.idctInto word op p col row).SameButSamples (s'.idctInto word op p col row) := by
  obtain ⟨m, x, q, rfl⟩ : ∃ m x q, s' = { s with px := m, im := x, preqs := q } := ⟨_, _, _, h⟩
  unfold State.idctInto
  split_ifs <;> simp [State.SameButSamples, State.raiseFault]

theorem State.SameButSamples.wht {s s' t t' : State} (hs : s.SameButSamples s') (h : exec .wht s = .next t)
    (h' : exec .wht s' = .next t') : t.SameButSamples t' := by
  obtain ⟨m, x, q, rfl⟩ : ∃ m x q, s' = { s with px := m, im := x, preqs := q } := ⟨_, _, _, hs⟩
  simp only [exec, execWht, Host.Outcome.next.injEq] at h h'
  subst h h'
  unfold State.y2Coded State.copyNotPending
  dsimp only
  split_ifs <;> simp [State.SameButSamples, State.raiseFault, State.whtApply]

/-- Samples, scratch and the record of requests reach nothing else of a luma micro-op's result. -/
theorem exec_luma_sameButSamples {j : Instr} (hj : isLumaOp j = true) {s t s' t' : State} (h : exec j s = .next t)
    (h' : exec j s' = .next t') (hs : s.SameButSamples s') : t.SameButSamples t' := by
  have hcb : s'.cb = s.cb := by rw [hs]
  have hhdr : s'.hdr = s.hdr := by rw [hs]
  have hwc : s'.wc = s.wc := by rw [hs]
  cases j with
  | predy | predb col row =>
    obtain rfl := Host.Outcome.next.inj h
    obtain rfl := Host.Outcome.next.inj h'
    rw [hs]
    simp [State.SameButSamples, State.writeSamples, State.request]
  | idctY col row | idctW col row =>
    obtain rfl := Host.Outcome.next.inj h
    obtain rfl := Host.Outcome.next.inj h'
    simp only [State.operandCB_congr hcb hhdr, State.operandWC_congr hwc]
    exact hs.idctInto _ _ _ _ _
  | copyy =>
    obtain rfl := Host.Outcome.next.inj h
    obtain rfl := Host.Outcome.next.inj h'
    simp only [State.lumaTag_congr hcb hhdr]
    rw [hs, State.SameButSamples]
  | wht => exact hs.wht h h'
  | _ => cases hj

theorem State.lumaPlane_congr {s s' : State} (h : ∀ a, inLuma a → s.px.read a = s'.px.read a) :
    s.lumaPlane = s'.lumaPlane := by
  unfold State.lumaPlane
  congr 1
  funext j
  exact h _ (by simp only [inLuma, planeBase]; omega)

/-- A luma micro-op's samples depend, of the raster, on luma samples only. -/
theorem exec_luma_localTo {j : Instr} (hj : isLumaOp j = true) {s t s' t' : State} (h : exec j s = .next t)
    (h' : exec j s' = .next t') (hw : s.px.wf = true) (hw' : s'.px.wf = true) (hs : s.SameButSamples s') :
    Memory.LocalTo inLuma s.px t.px s'.px t'.px := by
  have hcb : s'.cb = s.cb := by rw [hs]
  have hhdr : s'.hdr = s.hdr := by rw [hs]
  have hwc : s'.wc = s.wc := by rw [hs]
  have hctx : s'.ctx = s.ctx := by rw [hs]
  cases j with
  | predy =>
    obtain rfl := Host.Outcome.next.inj h
    obtain rfl := Host.Outcome.next.inj h'
    have hin : ∀ c ∈ planeCells .y (Config.predY s.hdr.ymode s.ctx), inLuma c.1 := by
      intro c hc
      obtain ⟨j, rfl⟩ := mem_planeCells.mp hc
      simp only [planeBase, inLuma]
      omega
    simp only [State.writeSamples_px, State.request_px, hhdr, hctx]
    exact .writeMany hw hw' (fun _ => inLuma_range) hin hin fun _ => rfl
  | predb col row =>
    obtain rfl := Host.Outcome.next.inj h
    obtain rfl := Host.Outcome.next.inj h'
    have hin : ∀ f, ∀ c ∈ blockCells .y col.toNat row.toNat f, inLuma c.1 := by
      intro f c hc
      obtain ⟨j, rfl⟩ := mem_blockCells.mp hc
      exact inLuma_of_inBlock ⟨j, rfl⟩
    have hbmode : s'.bmode = s.bmode := by rw [hs]
    simp only [State.writeSamples_px, State.request_px, hbmode, hctx]
    exact .writeMany hw hw' (fun _ => inLuma_range) (hin _) (hin _) fun hread => by rw [State.lumaPlane_congr hread]
  | idctY col row | idctW col row =>
    obtain rfl := Host.Outcome.next.inj h
    obtain rfl := Host.Outcome.next.inj h'
    simp only [State.operandCB_congr hcb hhdr, State.operandWC_congr hwc]
    exact (State.idctInto_localTo hw hw' (blockAddr_y_range col.isLt row.isLt)).mono fun _ => inLuma_of_inBlock
  | copyy | wht =>
    rw [exec_px_eq (by simp) h, exec_px_eq (by simp) h']
    exact .refl _ _ _
  | _ => cases hj

theorem inChroma_not_inLuma {a : Nat} (h : inChroma a) : ¬ inLuma a := by
  obtain ⟨hlo, -⟩ := h
  exact fun hl => Nat.not_lt.mpr hlo hl.2

/-- Settles O29: chroma and luma samples are disjoint regions, each micro-op is local to its own, and all else that a
luma micro-op answers depends on neither samples nor scratch. -/
theorem chromaAndLumaAreIndependent : Obligations.ChromaAndLumaAreIndependent := by
  intro i j s t1 t2 u1 u2 hi hj hw ht1 ht2 hu1 hu2
  have hs : s.SameButSamples t1 := exec_chroma_sameButSamples hi ht1
  obtain ⟨hcb, hhdr, -, -, hctx, -⟩ := exec_keeps_inputs hu1
  have hwt := exec_wf ht1 hw
  have hwu := exec_wf hu1 hw
  have hpx : t2.px = u2.px := Memory.ext (exec_wf ht2 hwt) (exec_wf hu2 hwu) <|
    Memory.LocalTo.comm (fun _ => inChroma_not_inLuma) (exec_chroma_localTo hi ht1 hu2 hw hwu hcb hhdr hctx)
      (exec_luma_localTo hj hu1 ht2 hw hwt hs)
  exact (exec_luma_sameButSamples hj hu1 ht2 hs).eq_of_px_eq (exec_chroma_sameButSamples hi hu2) hpx

/-! ### Luma `IDCT`s of two sub-blocks -/

theorem State.idctInto_keeps (s : State) (word : Word) (op : Coefs × Tag) (p : Plane) (col row : Nat) :
    (s.idctInto word op p col row).cb = s.cb ∧ (s.idctInto word op p col row).hdr = s.hdr ∧
      (s.idctInto word op p col row).wc = s.wc ∧ (s.idctInto word op p col row).preqs = s.preqs := by
  rcases s.idctInto_cases word op p col row with ⟨-, -, e⟩ | ⟨-, e⟩ <;> simp [e]

theorem State.idctInto_operandCB (s : State) (word : Word) (op : Coefs × Tag) (p : Plane) (col row : Nat) (b : Fin 25) :
    (s.idctInto word op p col row).operandCB b = s.operandCB b := by
  obtain ⟨hcb, hhdr, -⟩ := s.idctInto_keeps word op p col row
  exact operandCB_congr hcb hhdr

theorem State.idctInto_operandWC (s : State) (word : Word) (op : Coefs × Tag) (p : Plane) (col row : Nat) (k : Fin 16) :
    (s.idctInto word op p col row).operandWC k = s.operandWC k := by
  obtain ⟨-, -, hwc, -⟩ := s.idctInto_keeps word op p col row
  exact operandWC_congr hwc

/-- `IDCT`s of two final operands into two different luma sub-blocks leave, in either order, all but `IM` the same. -/
theorem State.idctInto_comm {s t u : State} {w w' : Word} {op op' : Coefs × Tag} {c r c' r' : BitVec 2}
    (hw : s.px.wf = true) (hne : c ≠ c' ∨ r ≠ r') (hop : op.2 = .yWithoutY2) (hop' : op'.2 = .yWithoutY2)
    (ht : t = (s.idctInto w op .y c.toNat r.toNat).idctInto w' op' .y c'.toNat r'.toNat)
    (hu : u = (s.idctInto w' op' .y c'.toNat r'.toNat).idctInto w op .y c.toNat r.toNat) :
    t = { u with im := t.im } := by
  have hr := blockAddr_y_range c.isLt r.isLt
  have hr' := blockAddr_y_range c'.isLt r'.isLt
  have hwt := s.idctInto_wf w op _ _ _ hw hr
  have hwu := s.idctInto_wf w' op' _ _ _ hw hr'
  have hpx : t.px = u.px := by
    rw [ht, hu]
    exact Memory.ext (idctInto_wf _ w' op' _ _ _ hwt hr') (idctInto_wf _ w op _ _ _ hwu hr) <|
      Memory.LocalTo.comm (fun _ => inBlock_y_disjoint hne) (idctInto_localTo hw hwu hr) (idctInto_localTo hw hwt hr')
  have hst : s.SameButSamples t :=
    ht ▸ (sameButSamples_idctInto s _ _ _ _ (.inl hop)).trans (sameButSamples_idctInto _ _ _ _ _ (.inl hop'))
  have hsu : s.SameButSamples u :=
    hu ▸ (sameButSamples_idctInto s _ _ _ _ (.inl hop')).trans (sameButSamples_idctInto _ _ _ _ _ (.inl hop))
  have hreq : t.preqs = u.preqs := by simp only [ht, hu, idctInto_keeps]
  calc t = { u with im := t.im, preqs := t.preqs } := hst.eq_of_px_eq hsu hpx
    _ = { u with im := t.im } := by rw [hreq]

theorem State.operandWC_final {s : State} (h : s.copyFinal = true) (k : Fin 16) :
    (s.operandWC k).2 = .yWithoutY2 := by
  have htag : s.wc[k].tag = .yWithoutY2 := of_decide_eq_true h k
  rw [State.operandWC, htag, CopyTag.toTag]

/-- The luma blocks of `CB` are final when `HDR.PB` = 1 or the Y2 block is uncoded (R21). -/
theorem State.operandCB_luma_final {s : State} (h : s.hdr.pb = true ∨ s.cb[24].coded = false) (k : Fin 16) :
    (s.operandCB (storeBlock k)).2 = .yWithoutY2 := by
  have h24 : k.val ≠ 24 := by omega
  have h16 : ¬ 16 ≤ k.val := by omega
  rcases h with h | h <;>
    simp [State.operandCB, State.tagCB, State.lumaTag, State.y2Coded, storeBlock, CopyTag.toTag, h, h24, h16]

/-- Settles O30: an `IDCT` leaves the operand of the other alone, and the two sub-blocks are disjoint. -/
theorem lumaBlocksInAnyOrder : Obligations.LumaBlocksInAnyOrder := by
  intro s t1 t2 u1 u2 c r c' r' hne hw
  refine ⟨fun hfinal ht1 ht2 hu1 hu2 => ?_, fun hfinal ht1 ht2 hu1 hu2 => ?_⟩ <;>
    obtain rfl := Host.Outcome.next.inj ht1 <;> obtain rfl := Host.Outcome.next.inj hu1
  · simp only [exec, execIdctW, State.idctInto_operandWC, Host.Outcome.next.injEq] at ht2 hu2
    exact State.idctInto_comm hw hne (State.operandWC_final hfinal _) (State.operandWC_final hfinal _) ht2.symm hu2.symm
  · simp only [exec, execIdctY, State.idctInto_operandCB, Host.Outcome.next.injEq] at ht2 hu2
    exact State.idctInto_comm hw hne (State.operandCB_luma_final hfinal _) (State.operandCB_luma_final hfinal _)
      ht2.symm hu2.symm

end Sys2Proof.Machine
end

section
/-! PROOFS about the command words of 30_encoding.md: a word as its fields (R60), decoder and encoder as inverses of each
other, the opcode table, and the illegal words (R65, R66). -/

namespace Sys2Proof.Machine

/-! ### A word as its fields (R60) -/

/-- The word with the six fields of R60. -/
def packWord (opc : BitVec 4) (z : BitVec 5) (src : BitVec 1) (plane row col : BitVec 2) : Word :=
  opc ++ z ++ src ++ plane ++ row ++ col

theorem append_eq_zero_iff {m n : Nat} (a : BitVec m) (b : BitVec n) : a ++ b = 0#(m + n) ↔ a = 0#m ∧ b = 0#n := by
  simp [← BitVec.toNat_inj, BitVec.toNat_append, Nat.shiftLeft_eq]

section Fields

variable (opc : BitVec 4) (z : BitVec 5) (src : BitVec 1) (plane row col : BitVec 2)

theorem packWord_getLsbD (k : Nat) : (packWord opc z src plane row col).getLsbD k =
    if k < 2 then col.getLsbD k else if k < 4 then row.getLsbD (k - 2) else if k < 6 then plane.getLsbD (k - 4)
    else if k < 7 then src.getLsbD (k - 6) else if k < 12 then z.getLsbD (k - 7) else opc.getLsbD (k - 12) := by
  simp only [packWord, BitVec.getLsbD_append]
  grind

/-- The fields of a packed word are what was packed. -/
@[simp] theorem packWord_fields :
    opcField (packWord opc z src plane row col) = opc ∧ zField (packWord opc z src plane row col) = z ∧
    srcField (packWord opc z src plane row col) = src ∧ planeField (packWord opc z src plane row col) = plane ∧
    rowField (packWord opc z src plane row col) = row ∧ colField (packWord opc z src plane row col) = col := by
  simp only [opcField, zField, srcField, planeField, rowField, colField]
  refine ⟨?_, ?_, ?_, ?_, ?_, ?_⟩ <;> ext k hk <;> simp only [BitVec.getElem_extractLsb', packWord_getLsbD] <;> grind

/-- Every word is the word of its fields. -/
theorem exists_packWord (w : Word) : ∃ opc z src plane row col, packWord opc z src plane row col = w := by
  refine ⟨opcField w, zField w, srcField w, planeField w, rowField w, colField w, ?_⟩
  refine BitVec.eq_of_getLsbD_eq fun k hk => ?_
  simp only [packWord_getLsbD, opcField, zField, srcField, planeField, rowField, colField, BitVec.getLsbD_extractLsb']
  grind

/-- Bits 6:0 are zero when the four fields they hold are (R66 (b)). -/
@[simp] theorem extractLsb_0_7_packWord_eq_zero : (packWord opc z src plane row col).extractLsb' 0 7 = 0#7 ↔
    src = 0#1 ∧ plane = 0#2 ∧ row = 0#2 ∧ col = 0#2 := by
  have h : (packWord opc z src plane row col).extractLsb' 0 7 = src ++ plane ++ row ++ col := by
    ext k hk
    simp only [BitVec.getElem_extractLsb', packWord_getLsbD]
    grind
  rw [h, append_eq_zero_iff (src ++ plane ++ row), append_eq_zero_iff (src ++ plane), append_eq_zero_iff,
    and_assoc, and_assoc]

/-- Bits 6:4 are zero when `SRC` and `PLANE` are (R66 (c)). -/
@[simp] theorem extractLsb_4_3_packWord_eq_zero :
    (packWord opc z src plane row col).extractLsb' 4 3 = 0#3 ↔ src = 0#1 ∧ plane = 0#2 := by
  have h : (packWord opc z src plane row col).extractLsb' 4 3 = src ++ plane := by
    ext k hk
    simp only [BitVec.getElem_extractLsb', packWord_getLsbD]
    grind
  rw [h, append_eq_zero_iff]

/-- Bits 1 and 3 are the high bits of `COL` and `ROW`, which are 0 in the chroma grid (R66 (e)). -/
theorem chromaBits_packWord :
    ((packWord opc z src plane row col).getLsbD 1 || (packWord opc z src plane row col).getLsbD 3) =
      !inChromaGrid col row := by
  have h : (col.getLsbD 1 || row.getLsbD 1) = !inChromaGrid col row := by revert row col; decide
  rw [← h, packWord_getLsbD, packWord_getLsbD]
  rfl

/-- The position bits are the fields `ROW` and `COL` (R62, R63). -/
theorem or_positionBits :
    packWord opc z src plane 0#2 0#2 ||| positionBits col row = packWord opc z src plane row col := by
  refine BitVec.eq_of_getLsbD_eq fun k hk => ?_
  simp only [positionBits, packWord_getLsbD, BitVec.getLsbD_or, BitVec.getLsbD_shiftLeft, BitVec.getLsbD_setWidth,
    BitVec.getLsbD_zero]
  grind

end Fields

theorem opc_cases (opc : BitVec 4) : (opc = 0#4 ∨ 8#4 ≤ opc) ∨
    (opc = 1#4 ∨ opc = 2#4 ∨ opc = 3#4 ∨ opc = 6#4 ∨ opc = 7#4) ∨ opc = 4#4 ∨ opc = 5#4 := by
  revert opc; decide

theorem plane_cases (plane : BitVec 2) : plane = 0#2 ∨ plane = 1#2 ∨ plane = 2#2 ∨ plane = 3#2 := by
  revert plane; decide

/-! ### The words of the commands with operands, as fields (R62, R63) -/

theorem encode_predb (col row : BitVec 2) : encode (.predb col row) = packWord 4#4 0#5 0#1 0#2 row col :=
  or_positionBits 4#4 0#5 0#1 0#2 row col

theorem encode_idctY (col row : BitVec 2) : encode (.idctY col row) = packWord 5#4 0#5 0#1 0#2 row col :=
  or_positionBits 5#4 0#5 0#1 0#2 row col

theorem encode_idctU (col row : BitVec 2) : encode (.idctU col row) = packWord 5#4 0#5 0#1 1#2 row col :=
  or_positionBits 5#4 0#5 0#1 1#2 row col

theorem encode_idctV (col row : BitVec 2) : encode (.idctV col row) = packWord 5#4 0#5 0#1 2#2 row col :=
  or_positionBits 5#4 0#5 0#1 2#2 row col

theorem encode_idctW (col row : BitVec 2) : encode (.idctW col row) = packWord 5#4 0#5 1#1 0#2 row col :=
  or_positionBits 5#4 0#5 1#1 0#2 row col

/-! ### The decoder inverts the encoder -/

theorem decodeChroma_of_inChromaGrid {opc : BitVec 4} {z : BitVec 5} {src : BitVec 1} {plane row col : BitVec 2}
    {i : Instr} (h : inChromaGrid col row = true) : decodeChroma (packWord opc z src plane row col) i = .ok i := by
  rw [decodeChroma, chromaBits_packWord, h]
  rfl

/-- Settles O2, command by command: the decoder reads the fields that the encoder packed. -/
theorem decodeOfEncode : Obligations.DecodeOfEncode := by
  intro i h
  cases i with
  | runmb | predc | predy | copyy | wht => decide
  | predb col row => simp [encode_predb, decode, decodePredb]
  | idctY col row => simp [encode_idctY, decode, decodeIdct]
  | idctU col row => simp [encode_idctU, decode, decodeIdct, decodeChroma_of_inChromaGrid h]
  | idctV col row => simp [encode_idctV, decode, decodeIdct, decodeChroma_of_inChromaGrid h]
  | idctW col row => simp [encode_idctW, decode, decodeIdct]

/-! ### Every word is illegal and rejected, or the word of a command (R61 to R66) -/

/-- A word is illegal by R65 and R66 and the decoder rejects it, or it is not and is the word of a well-formed command. -/
def IllegalOrEncoded (w : Word) : Prop :=
  (bitsIllegal w = true ∧ ∃ e, decode w = .error e) ∨
    (bitsIllegal w = false ∧ ∃ i : Instr, i.wellFormed = true ∧ encode i = w)

/-- R65. -/
theorem illegalOrEncoded_of_opc {w : Word} (h : opcField w = 0#4 ∨ 8#4 ≤ opcField w) : IllegalOrEncoded w := by
  refine .inl ⟨?_, .illegalOpcode, if_pos h⟩
  rcases h with h | h
  · simp [bitsIllegal, h]
  · simp [bitsIllegal, show 8 ≤ (opcField w).toNat from h]

/-- R66 (a). -/
theorem illegalOrEncoded_of_z {w : Word} (h : zField w ≠ 0#5) : IllegalOrEncoded w := by
  by_cases hopc : opcField w = 0#4 ∨ 8#4 ≤ opcField w
  · exact illegalOrEncoded_of_opc hopc
  · exact .inl ⟨by simp [bitsIllegal, h], .reservedBits, by simp [decode, hopc, h]⟩

/-- The command of an operation code without operands, and what decides whether its word is legal (R61, R66 (b)). -/
theorem exists_plain_command {opc : BitVec 4} (h : opc = 1#4 ∨ opc = 2#4 ∨ opc = 3#4 ∨ opc = 6#4 ∨ opc = 7#4) :
    ∃ i : Instr, i.wellFormed = true ∧ encode i = packWord opc 0#5 0#1 0#2 0#2 0#2 ∧
      ∀ w, opcField w = opc → zField w = 0#5 →
        decode w = decodePlain w i ∧ bitsIllegal w = (w.extractLsb' 0 7 != 0#7) := by
  rcases h with rfl | rfl | rfl | rfl | rfl
  · exact ⟨.runmb, rfl, rfl, fun w ho hz => by simp [decode, bitsIllegal, ho, hz]⟩
  · exact ⟨.predc, rfl, rfl, fun w ho hz => by simp [decode, bitsIllegal, ho, hz]⟩
  · exact ⟨.predy, rfl, rfl, fun w ho hz => by simp [decode, bitsIllegal, ho, hz]⟩
  · exact ⟨.copyy, rfl, rfl, fun w ho hz => by simp [decode, bitsIllegal, ho, hz]⟩
  · exact ⟨.wht, rfl, rfl, fun w ho hz => by simp [decode, bitsIllegal, ho, hz]⟩

section Fields

variable (src : BitVec 1) (plane row col : BitVec 2)

/-- R66 (b). -/
theorem illegalOrEncoded_plain {opc : BitVec 4} (h : opc = 1#4 ∨ opc = 2#4 ∨ opc = 3#4 ∨ opc = 6#4 ∨ opc = 7#4) :
    IllegalOrEncoded (packWord opc 0#5 src plane row col) := by
  obtain ⟨i, hwf, henc, hw⟩ := exists_plain_command h
  obtain ⟨hdec, hbits⟩ := hw (packWord opc 0#5 src plane row col) (by simp) (by simp)
  by_cases h0 : (packWord opc 0#5 src plane row col).extractLsb' 0 7 = 0#7
  · refine .inr ⟨by simp only [hbits, h0, bne_self_eq_false], i, hwf, ?_⟩
    obtain ⟨rfl, rfl, rfl, rfl⟩ := (extractLsb_0_7_packWord_eq_zero ..).mp h0
    exact henc
  · exact .inl ⟨by rw [hbits]; exact bne_iff_ne.mpr h0, .operandBits, hdec.trans (if_neg h0)⟩

/-- R66 (c). -/
theorem illegalOrEncoded_predb : IllegalOrEncoded (packWord 4#4 0#5 src plane row col) := by
  by_cases h : src = 0#1 ∧ plane = 0#2
  · obtain ⟨rfl, rfl⟩ := h
    exact .inr ⟨by simp [bitsIllegal], .predb col row, rfl, encode_predb col row⟩
  · exact .inl ⟨by simpa [bitsIllegal] using h, .predbBits, by simp [decode, decodePredb, h]⟩

/-- The chroma form of `IDCT` on a plane, and what decides whether its word is legal (R63, R66 (e)). -/
theorem exists_chroma_command {plane : BitVec 2} (h : plane = 1#2 ∨ plane = 2#2) :
    ∃ i : Instr, i.wellFormed = inChromaGrid col row ∧ encode i = packWord 5#4 0#5 0#1 plane row col ∧
      decode (packWord 5#4 0#5 0#1 plane row col) = decodeChroma (packWord 5#4 0#5 0#1 plane row col) i ∧
      bitsIllegal (packWord 5#4 0#5 0#1 plane row col) = !inChromaGrid col row := by
  rcases h with rfl | rfl <;> simp only [bitsIllegal, chromaBits_packWord]
  · exact ⟨.idctU col row, rfl, encode_idctU col row, by simp [decode, decodeIdct], by simp⟩
  · exact ⟨.idctV col row, rfl, encode_idctV col row, by simp [decode, decodeIdct], by simp⟩

/-- R66 (e), and (f) on the chroma planes. -/
theorem illegalOrEncoded_chroma {plane : BitVec 2} (h : plane = 1#2 ∨ plane = 2#2) :
    IllegalOrEncoded (packWord 5#4 0#5 src plane row col) := by
  rcases BitVec.eq_zero_or_eq_one src with rfl | rfl
  · obtain ⟨i, hwf, henc, hdec, hbits⟩ := exists_chroma_command row col h
    cases hgrid : inChromaGrid col row with
    | true => exact .inr ⟨by rw [hbits, hgrid, Bool.not_true], i, hwf.trans hgrid, henc⟩
    | false =>
      refine .inl ⟨by rw [hbits, hgrid, Bool.not_false], .chromaPosition, hdec.trans ?_⟩
      rw [decodeChroma, chromaBits_packWord, hgrid]
      rfl
  · refine .inl ⟨?_, .sourcePlane, ?_⟩ <;> rcases h with rfl | rfl <;> simp [bitsIllegal, decode, decodeIdct]

/-- R66 (d) to (f). -/
theorem illegalOrEncoded_idct : IllegalOrEncoded (packWord 5#4 0#5 src plane row col) := by
  rcases plane_cases plane with rfl | h | h | rfl
  · rcases BitVec.eq_zero_or_eq_one src with rfl | rfl
    · exact .inr ⟨by simp [bitsIllegal], .idctY col row, rfl, encode_idctY col row⟩
    · exact .inr ⟨by simp [bitsIllegal], .idctW col row, rfl, encode_idctW col row⟩
  · exact illegalOrEncoded_chroma src row col (.inl h)
  · exact illegalOrEncoded_chroma src row col (.inr h)
  · exact .inl ⟨by simp [bitsIllegal], .illegalPlane, by simp [decode, decodeIdct]⟩

end Fields

/-- One of the two holds of every word: the fields decide which. -/
theorem illegalOrEncoded (w : Word) : IllegalOrEncoded w := by
  obtain ⟨opc, z, src, plane, row, col, rfl⟩ := exists_packWord w
  by_cases hz : z = 0#5
  · subst hz
    rcases opc_cases opc with hopc | hopc | rfl | rfl
    · exact illegalOrEncoded_of_opc (by simpa using hopc)
    · exact illegalOrEncoded_plain src plane row col hopc
    · exact illegalOrEncoded_predb src plane row col
    · exact illegalOrEncoded_idct src plane row col
  · exact illegalOrEncoded_of_z (by simpa using hz)

/-- Settles O3: a word that decodes is not rejected, so it is the word of a command, which decoding gives back. -/
theorem encodeOfDecode : Obligations.EncodeOfDecode := by
  intro w i hw
  rcases illegalOrEncoded w with ⟨-, e, he⟩ | ⟨-, j, hwf, rfl⟩
  · cases hw.symm.trans he
  · obtain rfl : j = i := Except.ok.inj ((decodeOfEncode j hwf).symm.trans hw)
    exact ⟨hwf, rfl⟩

theorem exists_decode_eq_ok_iff {w : Word} :
    (∃ i, decode w = .ok i) ↔ ∃ i : Instr, i.wellFormed = true ∧ encode i = w := by
  refine ⟨fun ⟨i, h⟩ => ⟨i, encodeOfDecode w i h⟩, ?_⟩
  rintro ⟨i, h, rfl⟩
  exact ⟨i, decodeOfEncode i h⟩

/-! ### The opcode table (R60) -/

theorem encode_wordInRow (i : Instr) : Laws.WordInRow.Statement i :=
  match i with
  | .runmb => Laws.WordInRow.runmb
  | .predc => Laws.WordInRow.predc
  | .predy => Laws.WordInRow.predy
  | .predb col row => Laws.WordInRow.predb col row
  | .idctY col row => Laws.WordInRow.idctY col row
  | .idctU col row => Laws.WordInRow.idctU col row
  | .idctV col row => Laws.WordInRow.idctV col row
  | .idctW col row => Laws.WordInRow.idctW col row
  | .copyy => Laws.WordInRow.copyy
  | .wht => Laws.WordInRow.wht

theorem row_mem_opcodeRows (i : Instr) : (tableMask i, tableMatch i) ∈ opcodeRows := by
  cases i <;> simp [tableMask, tableMatch, opcodeRows]

theorem matchesRow_encode {i : Instr} (h : i.wellFormed = true) : matchesRow (encode i) = true :=
  List.any_eq_true.mpr ⟨_, row_mem_opcodeRows i, beq_iff_eq.mpr (encode_wordInRow i h)⟩

theorem and_or_positionBits (w : Word) : (w &&& 0xFFF0#16) ||| positionBits (colField w) (rowField w) = w := by
  ext k hk
  interval_cases k <;> simp [positionBits, colField, rowField]

theorem and_or_chroma_positionBits (w : Word) :
    (w &&& 0xFFFA#16) ||| positionBits (colField w &&& 1#2) (rowField w &&& 1#2) = w := by
  ext k hk
  interval_cases k <;> simp [positionBits, colField, rowField]

theorem inChromaGrid_and_one (col row : BitVec 2) : inChromaGrid (col &&& 1#2) (row &&& 1#2) = true := by
  revert col row; decide

/-- A word is its row's match and the position bits that the row's mask leaves free. -/
theorem exists_encode_of_matchesRow {w : Word} (h : matchesRow w = true) :
    ∃ i : Instr, i.wellFormed = true ∧ encode i = w := by
  obtain ⟨r, hr, hbeq⟩ := List.any_eq_true.mp h
  have hw : w &&& r.1 = r.2 := beq_iff_eq.mp hbeq
  have hplain {v : Word} (h : w &&& 0xFFFF#16 = v) : v = w := h.symm.trans BitVec.and_allOnes
  have hluma {v : Word} (h : w &&& 0xFFF0#16 = v) : v ||| positionBits (colField w) (rowField w) = w :=
    h ▸ and_or_positionBits w
  have hchroma {v : Word} (h : w &&& 0xFFFA#16 = v) :
      v ||| positionBits (colField w &&& 1#2) (rowField w &&& 1#2) = w :=
    h ▸ and_or_chroma_positionBits w
  simp only [opcodeRows, List.mem_cons, List.not_mem_nil, or_false] at hr
  rcases hr with rfl | rfl | rfl | rfl | rfl | rfl | rfl | rfl | rfl | rfl
  · exact ⟨.runmb, rfl, hplain hw⟩
  · exact ⟨.predc, rfl, hplain hw⟩
  · exact ⟨.predy, rfl, hplain hw⟩
  · exact ⟨.predb _ _, rfl, hluma hw⟩
  · exact ⟨.idctY _ _, rfl, hluma hw⟩
  · exact ⟨.idctU _ _, inChromaGrid_and_one .., hchroma hw⟩
  · exact ⟨.idctV _ _, inChromaGrid_and_one .., hchroma hw⟩
  · exact ⟨.idctW _ _, rfl, hluma hw⟩
  · exact ⟨.copyy, rfl, hplain hw⟩
  · exact ⟨.wht, rfl, hplain hw⟩

/-- Two rows that share a word agree on the bits both masks keep. -/
theorem match_and_mask_eq {w m v m' v' : Word} (h : w &&& m = v) (h' : w &&& m' = v') : v &&& m' = v' &&& m := by
  rw [← h, ← h', BitVec.and_assoc, BitVec.and_assoc, BitVec.and_comm m]

/-- Settles O4: matching a row, like decoding, is being the word of a well-formed command; two rows differ on a bit that
both masks keep. -/
theorem opcodeTableIsTheDecoder : Obligations.OpcodeTableIsTheDecoder := by
  refine ⟨fun w => ?_, fun w i hw => ?_, ?_⟩
  · rw [exists_decode_eq_ok_iff]
    refine ⟨exists_encode_of_matchesRow, ?_⟩
    rintro ⟨i, h, rfl⟩
    exact matchesRow_encode h
  · obtain ⟨hwf, rfl⟩ := encodeOfDecode w i hw
    exact encode_wordInRow i hwf
  · have hrows : opcodeRows.Pairwise fun r q => r.2 &&& q.1 ≠ q.2 &&& r.1 := by decide
    exact hrows.imp fun hne w ⟨hr, hq⟩ => hne (match_and_mask_eq hr hq)

/-! ### The illegal words (R65, R66) -/

theorem bitsIllegal_iff (w : Word) : bitsIllegal w = true ↔ ∃ e, decode w = .error e := by
  rcases illegalOrEncoded w with ⟨hbits, he⟩ | ⟨hbits, i, hwf, rfl⟩
  · exact iff_of_true hbits he
  · simp [hbits, decodeOfEncode i hwf]

theorem encode_mem_legalWords {i : Instr} (h : i.wellFormed = true) : encode i ∈ legalWords := by
  cases i with
  | runmb | predc | predy | copyy | wht => decide
  | predb col row | idctY col row | idctU col row | idctV col row | idctW col row => revert col row; decide

theorem matchesRow_of_mem_legalWords : ∀ w ∈ legalWords, matchesRow w = true :=
  List.all_eq_true.mp rfl

/-- The words that decode are R66's list of 61. -/
theorem mem_legalWords_iff (w : Word) : (∃ i, decode w = .ok i) ↔ w ∈ legalWords := by
  rw [exists_decode_eq_ok_iff]
  constructor
  · rintro ⟨i, h, rfl⟩
    exact encode_mem_legalWords h
  · exact fun hw => exists_encode_of_matchesRow (matchesRow_of_mem_legalWords w hw)

theorem exists_error_of_not_mem_legalWords {w : Word} (h : w ∉ legalWords) : ∃ e, decode w = .error e := by
  cases hd : decode w with
  | error e => exact ⟨e, rfl⟩
  | ok i => exact absurd ((mem_legalWords_iff w).mp ⟨i, hd⟩) h

/-- A write of `CMD` while idle is the acceptance of its word (R48, R106). -/
theorem State.hostWrite_cmd_of_idle {s : State} (h : s.isIdle = true) (w : Word) :
    s.hostWrite 0x000#11 w = s.accept w := by
  obtain ⟨hb, hf⟩ := State.isIdle_iff.mp h
  simp [State.hostWrite, hb, hf, show hostReg 0x000#11 = .cmd from rfl]

theorem State.accept_of_error {s : State} {w : Word} {e : DecodeError} (h : decode w = .error e) :
    s.accept w = .next (s.clearOnAccept.raiseFault .illegalCmd w) := by
  simp only [State.accept, h]

/-- Settles O1: the words by their fields and by the list; the fault is acceptance's. -/
theorem illegalWordsAreRejected : Obligations.IllegalWordsAreRejected := by
  refine ⟨bitsIllegal_iff, mem_legalWords_iff, by decide, by decide, by decide, by decide, fun s w hi hw => ?_⟩
  obtain ⟨e, he⟩ := exists_error_of_not_mem_legalWords hw
  rw [State.hostWrite_cmd_of_idle hi, State.accept_of_error he]
  rfl

/-! ### The spec's own words (V37) -/

/-- Settles O5: each word is the encoding of its command. -/
theorem sampleWordsDecode : Obligations.SampleWordsDecode :=
  ⟨decodeOfEncode .runmb rfl, decodeOfEncode .predc rfl, decodeOfEncode .predy rfl,
    decodeOfEncode (.predb 3#2 2#2) rfl, decodeOfEncode (.idctY 1#2 2#2) rfl, decodeOfEncode (.idctU 1#2 0#2) rfl,
    decodeOfEncode (.idctV 0#2 1#2) rfl, decodeOfEncode (.idctW 3#2 3#2) rfl, decodeOfEncode .copyy rfl,
    decodeOfEncode .wht rfl⟩

end Sys2Proof.Machine
end

section
/-! PROOFS about the DC patching of 40_dc_patching.md: the two passes of the Walsh–Hadamard transform as a signed sum (R77
to R79, R82), which DC values fit their slot (R80), and the results and faults of `COPYY` and `WHT` (R75, R76). -/

namespace Sys2Proof.Machine

/-! ### One butterfly (R77, R79) -/

/-- Output `k` of the butterfly is the sum of its inputs under row `k` of the sign pattern. -/
theorem wht4_eq_sum (m : Fin 4 → Int) (k : Fin 4) :
    wht4 (m 0) (m 1) (m 2) (m 3) k.val = ∑ q, whtSign k q * m q := by
  rw [Fin.sum_univ_four]
  fin_cases k <;> simp [wht4, whtSign] <;> ring

/-- The range of an output for inputs in `-b..a`: no output but the first adds four inputs with one sign. -/
theorem wht4_range {a b : Int} {m : Fin 4 → Int} (hm : ∀ q, -b ≤ m q ∧ m q ≤ a) (hab : a ≤ b) (k : Fin 4) :
    -(4 * b) ≤ wht4 (m 0) (m 1) (m 2) (m 3) k.val ∧ wht4 (m 0) (m 1) (m 2) (m 3) k.val ≤ 2 * a + 2 * b := by
  have h0 := hm 0
  have h1 := hm 1
  have h2 := hm 2
  have h3 := hm 3
  fin_cases k <;> simp [wht4] <;> omega

/-! ### The two passes (R77 to R79, R82) -/

theorem whtColumn_eq_sum (blk : Coefs) (i k : Fin 4) :
    whtColumn blk i k = ∑ r, whtSign k r * coefAt blk (indexAt r i) :=
  wht4_eq_sum (fun r => coefAt blk (indexAt r i)) k

/-- R78: the range of a pass-1 value. -/
theorem whtColumn_range (blk : Coefs) (i k : Fin 4) : -131072 ≤ whtColumn blk i k ∧ whtColumn blk i k ≤ 131070 :=
  wht4_range (fun r => coefAt_range blk (indexAt r i)) (by decide) k

/-- A sum over the 16 entries of a block, taken column by column. -/
theorem sum_eq_sum_indexAt (f : Fin 16 → Int) : ∑ j, f j = ∑ q, ∑ r, f (indexAt r q) := by
  rw [← (finProdFinEquiv (m := 4) (n := 4)).sum_comp f, Fintype.sum_prod_type_right]
  refine Finset.sum_congr rfl fun q _ => Finset.sum_congr rfl fun r _ => congrArg f (Fin.ext ?_)
  exact Nat.add_comm _ _

theorem whtSum_eq_sum (blk : Coefs) (n : Fin 16) :
    whtSum blk n = ∑ j, whtSign (rowOf n) (rowOf j) * whtSign (colOf n) (colOf j) * coefAt blk j :=
  (Fin.sum_univ_def _).symm

/-- The signed sum of all 16 inputs is pass 2's butterfly on the row `rowOf n` of pass-1 values, before rounding. -/
theorem whtSum_eq_wht4 (blk : Coefs) (n : Fin 16) :
    whtSum blk n = wht4 (whtColumn blk 0 (rowOf n)) (whtColumn blk 1 (rowOf n)) (whtColumn blk 2 (rowOf n))
      (whtColumn blk 3 (rowOf n)) (colOf n).val := by
  rw [wht4_eq_sum (whtColumn blk · (rowOf n)), whtSum_eq_sum, sum_eq_sum_indexAt]
  refine Finset.sum_congr rfl fun q _ => ?_
  rw [whtColumn_eq_sum, Finset.mul_sum]
  refine Finset.sum_congr rfl fun r _ => ?_
  rw [rowOf_indexAt, colOf_indexAt]
  ring

/-- R82: the range of the signed sum. -/
theorem whtSum_range (blk : Coefs) (n : Fin 16) : -524288 ≤ whtSum blk n ∧ whtSum blk n ≤ 524284 := by
  rw [whtSum_eq_wht4]
  exact wht4_range (fun i => whtColumn_range blk i (rowOf n)) (by decide) (colOf n)

/-- Pass 2 reads each pass-1 value as it was computed: the `IM_W`-bit store loses nothing (R78). -/
theorem whtPass1_toInt (blk : Coefs) (r p : Fin 4) : (whtPass1 blk)[indexAt r p].toInt = whtColumn blk p r := by
  have hrange := whtColumn_range blk p r
  have hentry : (whtPass1 blk)[indexAt r p] = storeIM (whtColumn blk (colOf (indexAt r p)) (rowOf (indexAt r p))) :=
    whtPass1_getElem blk _ (indexAt r p).isLt
  rw [hentry, colOf_indexAt, rowOf_indexAt]
  exact storeIM_toInt (by omega) (by omega)

theorem whtPass2_whtPass1 (blk : Coefs) (n : Fin 16) : (whtPass2 (whtPass1 blk))[n] = (whtSum blk n + 3) / 8 := by
  rw [whtSum_eq_wht4, ← asr_three]
  simp only [whtPass2, Fin.getElem_fin, Vector.getElem_ofFn, Fin.eta, ← whtPass1_toInt]

/-- Settles O9: pass 1 fits the intermediate store, so the two passes nest into the signed sum, whose range is that of
two butterflies. -/
theorem whtIsSignedSum : Obligations.WhtIsSignedSum := fun blk =>
  ⟨whtColumn_range blk, whtPass2_whtPass1 blk, fun n => by have hrange := whtSum_range blk n; omega⟩

/-! ### DC values that fit their slot (R80) -/

/-- `wrap_N` changes exactly the integers outside the signed `N`-bit range. -/
theorem wrapTo_ne_iff {n : Nat} {v : Int} (hn : 1 ≤ n) : wrapTo n v ≠ v ↔ v < -2 ^ (n - 1) ∨ 2 ^ (n - 1) - 1 < v := by
  have hself : wrapTo n v = v ↔ -2 ^ (n - 1) ≤ v ∧ v ≤ 2 ^ (n - 1) - 1 :=
    ⟨fun h => h ▸ ⟨le_wrapTo n v, wrapTo_le n v⟩, fun ⟨hlo, hhi⟩ => wrapTo_of_inRange hn hlo hhi⟩
  rw [Ne, hself]
  omega

theorem dcOverflows_iff (blk : Coefs) : dcOverflows (whtPass2 (whtPass1 blk)) = true ↔
    ∃ n : Fin 16, (whtSum blk n + 3) / 8 < -32768 ∨ 32767 < (whtSum blk n + 3) / 8 := by
  rw [dcOverflows, decide_eq_true_iff]
  refine exists_congr fun n => ?_
  rw [whtPass2_whtPass1]
  exact wrapTo_ne_iff (by decide)

theorem natAbs_whtSign (r q : Fin 4) : (whtSign r q).natAbs = 1 := by
  fin_cases r <;> fin_cases q <;> rfl

theorem natAbs_whtSum_le (blk : Coefs) (n : Fin 16) :
    (whtSum blk n).natAbs ≤ ((List.finRange 16).map fun j => (coefAt blk j).natAbs).sum := by
  rw [whtSum_eq_sum, ← Fin.sum_univ_def]
  refine (Int.natAbs_sum_le _ _).trans_eq (Finset.sum_congr rfl fun j _ => ?_)
  rw [Int.natAbs_mul, Int.natAbs_mul, natAbs_whtSign, natAbs_whtSign, one_mul, one_mul]

theorem dcOverflows_eq_false {blk : Coefs}
    (h : ((List.finRange 16).map fun n => (coefAt blk n).natAbs).sum ≤ 262133) :
    dcOverflows (whtPass2 (whtPass1 blk)) = false := by
  rw [Bool.eq_false_iff, Ne, dcOverflows_iff]
  rintro ⟨n, hn⟩
  have habs := natAbs_whtSum_le blk n
  omega

/-- Settles O12: no signed sum exceeds the sum of the magnitudes, and 16 magnitudes of 16383 sum to 262128. -/
theorem smallInputsFitTheDcSlot : Obligations.SmallInputsFitTheDcSlot := by
  refine fun blk => ⟨fun hsmall => dcOverflows_eq_false ?_, dcOverflows_eq_false⟩
  have hsum : ((List.finRange 16).map fun n => (coefAt blk n).natAbs).sum ≤ 16 * 16383 :=
    List.sum_le_card_nsmul _ _ (by simpa using hsmall)
  omega

/-! ### `COPYY` (R75) -/

theorem State.lumaTag_of_pending {s : State} (h : s.hdr.pb = false ∧ s.cb[24].coded = true) :
    s.lumaTag = .yWithY2 := if_pos h

theorem State.lumaTag_of_not_pending {s : State} (h : ¬(s.hdr.pb = false ∧ s.cb[24].coded = true)) :
    s.lumaTag = .yWithoutY2 := if_neg h

theorem State.tagCB_storeBlock (s : State) (k : Fin 16) : s.tagCB (storeBlock k) = s.lumaTag.toTag := by
  have h24 : (storeBlock k).val ≠ 24 := by simp only [storeBlock]; omega
  have h16 : ¬ 16 ≤ (storeBlock k).val := by simp only [storeBlock]; omega
  rw [State.tagCB, if_neg h24, if_neg h16]

/-- Settles O17: the copy is a function of `CB` and `HDR`, which it leaves alone. -/
theorem copyyResult : Obligations.CopyyResult := by
  refine ⟨rfl, fun s => ⟨_, rfl, rfl, fun k => ?_, fun hpb hy2 k => ?_, fun hfinal k => ?_, rfl⟩⟩
  · rw [State.tagCB_storeBlock]
    simp [storeBlock]
  · simp [State.lumaTag_of_pending ⟨hpb, hy2⟩]
  · simp [State.lumaTag_of_not_pending hfinal]

/-! ### `WHT` (R76 to R81) -/

theorem State.copyNotPending_iff {s : State} :
    s.copyNotPending = true ↔ ∃ k : Fin 16, s.wc[k].tag ≠ .yWithY2 := decide_eq_true_iff

theorem exec_wht_of_pb {s : State} (hpb : s.hdr.pb = true) :
    exec .wht s = .next (s.raiseFault .whtNoY2 0x7000#16) := by
  simpa [hpb] using execWht_cases s

theorem exec_wht_of_uncoded {s : State} (hpb : s.hdr.pb = false) (hy2 : s.y2Coded = false) :
    exec .wht s = .next (s.raiseFault .whtUncoded 0x7000#16) := by
  simpa [hpb, hy2] using execWht_cases s

theorem exec_wht_of_copyNotPending {s : State} (hpb : s.hdr.pb = false) (hy2 : s.y2Coded = true)
    (hcopy : s.copyNotPending = true) : exec .wht s = .next (s.raiseFault .whtDstNotPending 0x7000#16) := by
  simpa [hpb, hy2, hcopy] using execWht_cases s

theorem exec_wht_of_pending {s : State} (hpb : s.hdr.pb = false) (hy2 : s.y2Coded = true)
    (hcopy : s.copyNotPending = false) : exec .wht s = .next s.whtApply := by
  simpa [hpb, hy2, hcopy] using execWht_cases s

/-- Settles O19: each fault under its own precondition, the ones before it holding. -/
theorem whtFaultOrder : Obligations.WhtFaultOrder := fun _ =>
  ⟨exec_wht_of_pb, exec_wht_of_uncoded,
    fun hpb hy2 htag => exec_wht_of_copyNotPending hpb hy2 (State.copyNotPending_iff.mpr htag)⟩

theorem State.whtApply_wc_getElem (s : State) (n : Fin 16) :
    s.whtApply.wc[n] = s.wc[n].patch ((whtSum s.cb[24].coef n + 3) / 8) := by
  rw [← whtPass2_whtPass1]
  simp

theorem State.whtApply_dcovf (s : State) : s.whtApply.status.dcovf = true ↔
    s.status.dcovf = true ∨ dcOverflows (whtPass2 (whtPass1 s.cb[24].coef)) = true :=
  Bool.or_eq_true_iff

/-- Settles O18: the preconditions leave the transform, which patches each block with its rounded signed sum. -/
theorem whtResult : Obligations.WhtResult := by
  intro s hpb hy2 htags
  have hcopy : s.copyNotPending = false := by
    rw [Bool.eq_false_iff, Ne, State.copyNotPending_iff]
    exact fun ⟨k, hk⟩ => hk (htags k)
  refine ⟨s.whtApply, exec_wht_of_pending hpb hy2 hcopy, rfl, fun n => ?_,
    s.whtApply_dcovf.trans (or_congr_right (dcOverflows_iff _))⟩
  rw [State.whtApply_wc_getElem]
  refine ⟨congrArg BitVec.toInt (WorkBlock.patch_dc _ _), fun i hi => ?_, rfl, rfl⟩
  exact WorkBlock.patch_ac _ _ i.val i.isLt (Fin.val_ne_of_ne hi)

end Sys2Proof.Machine
end

section
/-! PROOFS about the inverse DCT of 41_idct.md: the multiply helpers (R86), the two passes as the formulas over the integers
(R87 to R89, R93), DC-only blocks (R94), and the results and the fault of the four forms (R90 to R92, R95). -/

namespace Sys2Proof.Machine

/-! ### The multiply helpers (R86) -/

theorem mulA_eq (x : Int) : mulA x = x * 20091 / 65536 + x := rfl

theorem mulB_eq (x : Int) : mulB x = x * 35468 / 65536 := rfl

@[simp] theorem mulA_zero : mulA 0 = 0 := rfl

@[simp] theorem mulB_zero : mulB 0 = 0 := rfl

theorem mulA_mono : Monotone mulA := fun x y h => by
  rw [mulA_eq, mulA_eq]
  omega

theorem mulB_mono : Monotone mulB := fun x y h => by
  rw [mulB_eq, mulB_eq]
  omega

/-- Settles O8: a floor quotient is monotone in its dividend; the table values are computed. -/
theorem multiplyHelpers : Obligations.MultiplyHelpers :=
  ⟨fun x => ⟨mulA_eq x, mulB_eq x⟩, fun _ _ h => ⟨mulA_mono h, mulB_mono h⟩, by decide, by decide⟩

/-! ### The two passes (R87 to R89, R93) -/

/-- The range of a four-term combination for inputs in `-b..a`: output 0 is the least at `-b` everywhere, and output 3
the greatest with its even inputs at `a` and its odd ones at `-b`. The range of 16-bit inputs is lopsided by 1, that of
pass-1 values by 2. -/
theorem idct4_range {a b : Int} {m : Fin 4 → Int} (hm : ∀ q, -b ≤ m q ∧ m q ≤ a) (hab : a ≤ b) (hba : b ≤ a + 2)
    (k : Fin 4) :
    -(2 * b) + (mulA (-b) + mulB (-b)) ≤ idct4 (m 0) (m 1) (m 2) (m 3) k.val ∧
      idct4 (m 0) (m 1) (m 2) (m 3) k.val ≤ 2 * a - (mulA (-b) + mulB (-b)) := by
  obtain ⟨h0, h0'⟩ := hm 0
  obtain ⟨h1, h1'⟩ := hm 1
  obtain ⟨h2, h2'⟩ := hm 2
  obtain ⟨h3, h3'⟩ := hm 3
  have hA : mulA a + mulA (-b) + (b - a) ≤ 0 := by rw [mulA_eq, mulA_eq]; omega
  have hB : mulB a + mulB (-b) + (b - a) ≤ 0 := by rw [mulB_eq, mulB_eq]; omega
  have hA1 := mulA_mono h1
  have hA1' := mulA_mono h1'
  have hA3 := mulA_mono h3
  have hA3' := mulA_mono h3'
  have hB1 := mulB_mono h1
  have hB1' := mulB_mono h1'
  have hB3 := mulB_mono h3
  have hB3' := mulB_mono h3'
  fin_cases k <;> simp [idct4] <;> omega

theorem idctIm_eq_idctColumn (blk : Coefs) (i k : Fin 4) : idctIm blk i k = idctColumn blk i k := by
  fin_cases k <;> rfl

theorem idctResidual_eq_idct4 (blk : Coefs) (i k : Fin 4) :
    idctResidual blk i k =
      (idct4 (idctIm blk 0 i) (idctIm blk 1 i) (idctIm blk 2 i) (idctIm blk 3 i) k.val + 4) / 8 := by
  fin_cases k <;> rfl

/-- R93: the range of a pass-1 value. -/
theorem idctIm_range (blk : Coefs) (i k : Fin 4) : -126084 ≤ idctIm blk i k ∧ idctIm blk i k ≤ 126082 := by
  rw [idctIm_eq_idctColumn]
  exact idct4_range (fun r => coefAt_range blk (indexAt r i)) (by decide) (by decide) k

/-- R93: the range of a residual. -/
theorem idctResidual_range (blk : Coefs) (i k : Fin 4) : -60643 ≤ idctResidual blk i k ∧ idctResidual blk i k ≤ 60643 := by
  obtain ⟨hlo, hhi⟩ := idct4_range (fun q => idctIm_range blk q i) (by decide) (by decide) k
  have hA : mulA (-126084) = -164737 := rfl
  have hB : mulB (-126084) = -68237 := rfl
  rw [idctResidual_eq_idct4]
  omega

/-- Pass 2 reads each pass-1 value as it was computed: the `IM_W`-bit store loses nothing (R88). -/
theorem idctPass1_toInt (blk : Coefs) (i k : Fin 4) : (idctPass1 blk)[indexAt i k].toInt = idctIm blk i k := by
  have hrange := idctIm_range blk i k
  have hentry : (idctPass1 blk)[indexAt i k] = storeIM (idctColumn blk (rowOf (indexAt i k)) (colOf (indexAt i k))) :=
    idctPass1_getElem blk _ (indexAt i k).isLt
  rw [hentry, rowOf_indexAt, colOf_indexAt, ← idctIm_eq_idctColumn]
  exact storeIM_toInt (by omega) (by omega)

theorem residual_getElem (blk : Coefs) (n : Fin 16) : (residual blk)[n] = idctResidual blk (rowOf n) (colOf n) := by
  rw [idctResidual_eq_idct4, ← asr_three]
  simp only [residual, idctPass2, Fin.getElem_fin, Vector.getElem_ofFn, Fin.eta, ← idctPass1_toInt]

theorem residual_indexAt (blk : Coefs) (i k : Fin 4) : (residual blk)[indexAt i k] = idctResidual blk i k := by
  rw [residual_getElem, rowOf_indexAt, colOf_indexAt]

/-- Settles O10: pass 1 fits the intermediate store, so the two passes are the formulas, whose ranges are those of two
four-term combinations. -/
theorem idctIsExact : Obligations.IdctIsExact := fun blk =>
  ⟨idctIm_range blk, residual_indexAt blk, idctResidual_range blk⟩

/-! ### DC-only blocks (R94) -/

theorem coefAt_dcOnly (v : Word) (n : Fin 16) : coefAt (dcOnly v) n = if n = 0 then v.toInt else 0 := by
  by_cases hn : n = 0
  · simp [coefAt, dcOnly, hn]
  · have hval : 0 ≠ n.val := fun e => hn (Fin.ext e.symm)
    simp [coefAt, dcOnly, Coefs.zero, hn, hval]

theorem indexAt_eq_zero_iff (r q : Fin 4) : indexAt r q = 0 ↔ r = 0 ∧ q = 0 := by
  simp only [Fin.ext_iff, indexAt, Fin.val_zero]
  omega

/-- Pass 1 gives the DC on the four outputs of its column, and zero on the other columns. -/
theorem idctIm_dcOnly (v : Word) (i k : Fin 4) : idctIm (dcOnly v) i k = if i = 0 then v.toInt else 0 := by
  fin_cases k <;> simp [idctIm, coefAt_dcOnly, indexAt_eq_zero_iff]

theorem idctResidual_dcOnly (v : Word) (i k : Fin 4) : idctResidual (dcOnly v) i k = (v.toInt + 4) / 8 := by
  fin_cases k <;> simp [idctResidual, idctIm_dcOnly]

theorem dcOnly_zero : dcOnly 0#16 = Coefs.zero := by decide

@[simp] theorem idctResidual_zero (i k : Fin 4) : idctResidual Coefs.zero i k = 0 := by
  rw [← dcOnly_zero, idctResidual_dcOnly]
  rfl

/-- Settles O11: a DC passes both passes unmultiplied, and the all-zero block is the one whose DC is zero. -/
theorem dcOnlyBlockIsFlat : Obligations.DcOnlyBlockIsFlat := fun v =>
  ⟨fun n => by rw [residual_getElem, idctResidual_dcOnly], fun n => by rw [residual_getElem, idctResidual_zero]⟩

/-! ### What an `IDCT` does to its target (R90 to R92) -/

theorem State.idctInto_of_final (s : State) (word : Word) {op : Coefs × Tag} (p : Plane) (col row : Nat)
    (hop : op.2 = .yWithoutY2 ∨ op.2 = .uv) :
    s.idctInto word op p col row =
      { s with px := s.px.writeMany (s.accumulated (residual op.1) p col row), im := idctPass1 op.1 } := by
  rcases s.idctInto_cases word op p col row with ⟨hy, huv, -⟩ | ⟨-, e⟩
  · exact absurd hop (by simp [hy, huv])
  · exact e

theorem State.idctInto_of_pending (s : State) (word : Word) {op : Coefs × Tag} (p : Plane) (col row : Nat)
    (hop : op.2 = .yWithY2) : s.idctInto word op p col row = s.raiseFault .idctDcNotFinal word := by
  rcases s.idctInto_cases word op p col row with ⟨-, -, e⟩ | ⟨hop', -⟩
  · exact e
  · exact absurd hop' (by simp [hop])

/-- The second state is the first with a block's residual added, with clamping, to a sub-block of the raster: only those
samples and `IM` differ (R90, R92). -/
structure State.AddsResidual (s t : State) (blk : Coefs) (p : Plane) (col row : Nat) : Prop where
  keeps : t = { s with px := t.px, im := t.im }
  frame : ∀ a, ¬ inBlock p col row a → t.px.read a = s.px.read a
  result : s.px.wf = true → ∀ i k : Fin 4,
    ((t.memRead p (4 * col + k.val) (4 * row + i.val)).toNat : Int) =
      clamp255 ((s.memRead p (4 * col + k.val) (4 * row + i.val)).toNat + idctResidual blk i k)

theorem blockAddr_indexAt (p : Plane) (col row : Nat) (i k : Fin 4) :
    blockAddr p col row (indexAt i k) = sampleAddr p (4 * col + k.val) (4 * row + i.val) := by
  have hcol : (4 * i.val + k.val) % 4 = k.val := congrArg Fin.val (colOf_indexAt i k)
  have hrow : (4 * i.val + k.val) / 4 = i.val := congrArg Fin.val (rowOf_indexAt i k)
  simp only [blockAddr, indexAt, hcol, hrow]

theorem read_writeMany_blockCells_of_not_inBlock {m : Memory} {p : Plane} {col row : Nat} {f : Fin 16 → Byte} {a : Nat}
    (ha : ¬ inBlock p col row a) : (m.writeMany (blockCells p col row f)).read a = m.read a := by
  refine Memory.read_writeMany_of_not_mem fun c hc e => ha ?_
  obtain ⟨j, rfl⟩ := mem_blockCells.mp hc
  exact ⟨j, e⟩

/-- An `IDCT` of a final operand into a sub-block of the raster adds the operand's residual there. -/
theorem State.addsResidual_idctInto (s : State) (word : Word) {op : Coefs × Tag} {p : Plane} {col row : Nat}
    (hop : op.2 = .yWithoutY2 ∨ op.2 = .uv)
    (hr : ∀ j, Memory.firstAddr ≤ blockAddr p col row j ∧ blockAddr p col row j < Memory.endAddr) :
    s.AddsResidual (s.idctInto word op p col row) op.1 p col row := by
  have e := s.idctInto_of_final word p col row hop
  have hpx : (s.idctInto word op p col row).px = s.px.writeMany (s.accumulated (residual op.1) p col row) := by rw [e]
  refine { keeps := by rw [e], frame := fun a ha => ?_, result := fun hw i k => ?_ }
  · rw [hpx]
    exact read_writeMany_blockCells_of_not_inBlock ha
  · rw [State.memRead, State.memRead, ← blockAddr_indexAt, hpx, State.accumulated, read_writeMany_blockCells hw hr,
      clampByte_toNat, residual_indexAt]

/-- Every sample with a zero residual added keeps its value (R94 (a)). -/
theorem State.AddsResidual.eq_of_zero {s t : State} {p : Plane} {col row : Nat} (h : s.AddsResidual t Coefs.zero p col row)
    (hw : s.px.wf = true) (hwt : t.px.wf = true) : t = { s with im := t.im } := by
  have hread : ∀ a, t.px.read a = s.px.read a := by
    intro a
    by_cases ha : inBlock p col row a
    · obtain ⟨j, rfl⟩ := ha
      have hj : j = indexAt (rowOf j) (colOf j) := Fin.ext (Nat.div_add_mod j.val 4).symm
      have hres := h.result hw (rowOf j) (colOf j)
      rw [idctResidual_zero, add_zero, clamp255_of_inRange (by omega) (by omega)] at hres
      rw [hj, blockAddr_indexAt]
      exact BitVec.eq_of_toNat_eq (Int.ofNat_inj.mp hres)
    · exact h.frame a ha
  have hpx : t.px = s.px := Memory.ext hwt hw hread
  rw [h.keeps, hpx]

/-! ### The four forms (R91, R95) -/

theorem exec_idctY {col row : BitVec 2} {b : Fin 25} (hb : b.val = 4 * row.toNat + col.toNat) (s : State) :
    exec (.idctY col row) s =
      .next (s.idctInto (encode (.idctY col row)) (s.operandCB b) .y col.toNat row.toNat) := by
  obtain rfl : b = storeBlock (lumaBlock col row) := Fin.ext hb
  rfl

theorem exec_idctW {col row : BitVec 2} {k : Fin 16} (hk : k.val = 4 * row.toNat + col.toNat) (s : State) :
    exec (.idctW col row) s =
      .next (s.idctInto (encode (.idctW col row)) (s.operandWC k) .y col.toNat row.toNat) := by
  obtain rfl : k = lumaBlock col row := Fin.ext hk
  rfl

theorem exec_idctU {col row : BitVec 2} (hg : inChromaGrid col row = true) {b : Fin 25}
    (hb : b.val = 16 + 2 * row.toNat + col.toNat) (s : State) :
    exec (.idctU col row) s =
      .next (s.idctInto (encode (.idctU col row)) (s.operandCB b) .u col.toNat row.toNat) := by
  have hblock : uBlock col row = some b := (uBlock_eq_some hg).trans (congrArg some (Fin.ext hb.symm))
  simp only [exec, execIdctU, hblock]

theorem exec_idctV {col row : BitVec 2} (hg : inChromaGrid col row = true) {b : Fin 25}
    (hb : b.val = 20 + 2 * row.toNat + col.toNat) (s : State) :
    exec (.idctV col row) s =
      .next (s.idctInto (encode (.idctV col row)) (s.operandCB b) .v col.toNat row.toNat) := by
  have hblock : vBlock col row = some b := (vBlock_eq_some hg).trans (congrArg some (Fin.ext hb.symm))
  simp only [exec, execIdctV, hblock]

theorem inChromaGrid_iff {col row : BitVec 2} : inChromaGrid col row = true ↔ col.toNat < 2 ∧ row.toNat < 2 := by
  simp [inChromaGrid]

/-- The blocks 16 to 23 are chroma blocks, whose DC is always final (R21, R91). -/
theorem State.operandCB_chroma_tag (s : State) {b : Fin 25} (hlo : 16 ≤ b.val) (hhi : b.val < 24) :
    (s.operandCB b).2 = .uv := by
  simp [State.operandCB, State.tagCB, hlo, hhi.ne]

theorem State.operandCB_luma_of_final {s : State} (h : s.hdr.pb = true ∨ s.cb[24].coded = false) {col row : BitVec 2}
    {b : Fin 25} (hb : b.val = 4 * row.toNat + col.toNat) : (s.operandCB b).2 = .yWithoutY2 := by
  obtain rfl : b = storeBlock (lumaBlock col row) := Fin.ext hb
  exact State.operandCB_luma_final h _

theorem exec_idctY_addsResidual {s : State} {col row : BitVec 2} {b : Fin 25} (hb : b.val = 4 * row.toNat + col.toNat)
    (hfinal : s.hdr.pb = true ∨ s.cb[24].coded = false) :
    ∃ t, exec (.idctY col row) s = .next t ∧ s.AddsResidual t s.cb[b].coef .y col.toNat row.toNat :=
  ⟨_, exec_idctY hb s, s.addsResidual_idctInto _ (.inl (State.operandCB_luma_of_final hfinal hb))
    (blockAddr_y_range col.isLt row.isLt)⟩

theorem exec_idctW_addsResidual {s : State} {col row : BitVec 2} {k : Fin 16} (hk : k.val = 4 * row.toNat + col.toNat)
    (htag : s.wc[k].tag = .yWithoutY2) :
    ∃ t, exec (.idctW col row) s = .next t ∧ s.AddsResidual t s.wc[k].coef .y col.toNat row.toNat :=
  ⟨_, exec_idctW hk s, s.addsResidual_idctInto _ (.inl (congrArg CopyTag.toTag htag))
    (blockAddr_y_range col.isLt row.isLt)⟩

theorem exec_idctU_addsResidual {s : State} {col row : BitVec 2} (hg : inChromaGrid col row = true) {b : Fin 25}
    (hb : b.val = 16 + 2 * row.toNat + col.toNat) :
    ∃ t, exec (.idctU col row) s = .next t ∧ s.AddsResidual t s.cb[b].coef .u col.toNat row.toNat := by
  obtain ⟨hc, hr⟩ := inChromaGrid_iff.mp hg
  exact ⟨_, exec_idctU hg hb s, s.addsResidual_idctInto _ (.inr (s.operandCB_chroma_tag (by omega) (by omega)))
    (blockAddr_u_range hc hr)⟩

theorem exec_idctV_addsResidual {s : State} {col row : BitVec 2} (hg : inChromaGrid col row = true) {b : Fin 25}
    (hb : b.val = 20 + 2 * row.toNat + col.toNat) :
    ∃ t, exec (.idctV col row) s = .next t ∧ s.AddsResidual t s.cb[b].coef .v col.toNat row.toNat := by
  obtain ⟨hc, hr⟩ := inChromaGrid_iff.mp hg
  exact ⟨_, exec_idctV hg hb s, s.addsResidual_idctInto _ (.inr (s.operandCB_chroma_tag (by omega) (by omega)))
    (blockAddr_v_range hc hr)⟩

/-- Settles O20: a luma block of `CB` that is DC-final has its residual added. -/
theorem idctYResult : Obligations.IdctYResult := by
  intro s col row b hb hfinal
  obtain ⟨t, ht, hkeeps, hframe, hresult⟩ := exec_idctY_addsResidual hb hfinal
  exact ⟨t, ht, hkeeps, hframe, hresult⟩

/-- Settles O21: a working-copy block whose tag is final has its residual added. -/
theorem idctWResult : Obligations.IdctWResult := by
  intro s col row k hk htag
  obtain ⟨t, ht, hkeeps, hframe, hresult⟩ := exec_idctW_addsResidual hk htag
  exact ⟨t, ht, hkeeps, hframe, hresult⟩

/-- Settles O22: a chroma block is final whatever the header and the flags, and has its residual added. -/
theorem idctChromaResult : Obligations.IdctChromaResult := by
  refine fun s col row hg => ⟨fun b hb => ?_, fun b hb => ?_⟩
  · obtain ⟨t, ht, hkeeps, hframe, hresult⟩ := exec_idctU_addsResidual (s := s) hg hb
    exact ⟨t, ht, hkeeps, hframe, hresult⟩
  · obtain ⟨t, ht, hkeeps, hframe, hresult⟩ := exec_idctV_addsResidual (s := s) hg hb
    exact ⟨t, ht, hkeeps, hframe, hresult⟩

/-- A command that adds the residual of an all-zero block changes nothing but `IM`. -/
theorem exec_of_zero_block {i : Instr} {s : State} {blk : Coefs} {p : Plane} {col row : Nat} (hw : s.px.wf = true)
    (hz : blk = Coefs.zero) (h : ∃ t, exec i s = .next t ∧ s.AddsResidual t blk p col row) :
    ∃ t, exec i s = .next t ∧ t = { s with im := t.im } := by
  obtain ⟨t, ht, hadds⟩ := h
  subst hz
  exact ⟨t, ht, hadds.eq_of_zero hw (exec_wf ht hw)⟩

/-- Settles O25: each form adds the residual of its block, which is zero. -/
theorem zeroBlockChangesNothing : Obligations.ZeroBlockChangesNothing := fun _ _ _ hw =>
  ⟨fun _ hb hfinal hz => exec_of_zero_block hw hz (exec_idctY_addsResidual hb hfinal),
    fun _ hg hb hz => exec_of_zero_block hw hz (exec_idctU_addsResidual hg hb),
    fun _ hg hb hz => exec_of_zero_block hw hz (exec_idctV_addsResidual hg hb),
    fun _ hk htag hz => exec_of_zero_block hw hz (exec_idctW_addsResidual hk htag)⟩

/-- Settles O23: the operand's tag is pending, so the `IDCT` is fault entry with the command's own word. -/
theorem idctOfPendingBlockFaults : Obligations.IdctOfPendingBlockFaults := by
  refine fun s col row => ⟨fun hpb hy2 => ?_, fun k hk htag => ?_⟩
  · have hop : (s.operandCB (storeBlock (lumaBlock col row))).2 = .yWithY2 :=
      (s.tagCB_storeBlock _).trans (congrArg CopyTag.toTag (State.lumaTag_of_pending ⟨hpb, hy2⟩))
    exact congrArg Host.Outcome.next (s.idctInto_of_pending (encode (.idctY col row)) .y col.toNat row.toNat hop)
  · rw [exec_idctW hk, State.idctInto_of_pending s _ _ _ _ (congrArg CopyTag.toTag htag)]
    rfl

end Sys2Proof.Machine
end

section
/-! PROOFS about the prediction of 42_prediction.md: what a plane that is written whole reads as, and what stands outside it
(R27, R44), `PX.Y` as the predictor sees it (R97), and the results of `PREDC`, `PREDY` and `PREDB` (R101 to R104). -/

namespace Sys2Proof.Machine

/-! ### Whole planes (R27, R44) -/

theorem sampleAddr_eq_base_add (p : Plane) (x y : Nat) : sampleAddr p x y = planeBase p + (planeWidth p * y + x) :=
  Nat.add_assoc _ _ _

theorem Memory.writeMany_append (m : Memory) (c d : List Host.Cell) : m.writeMany (c ++ d) = (m.writeMany c).writeMany d :=
  List.foldl_append

/-- A plane written whole leaves every address outside it alone. -/
theorem read_writeMany_planeCells_of_outside {n : Nat} {m : Memory} {p : Plane} {v : Vector Byte n} {a : Nat}
    (ha : a < planeBase p ∨ planeBase p + n ≤ a) : (m.writeMany (planeCells p v)).read a = m.read a := by
  refine Memory.read_writeMany_of_not_mem fun c hc => ?_
  obtain ⟨j, rfl⟩ := mem_planeCells.mp hc
  dsimp only
  omega

/-- A plane just written reads, sample by sample, as the values written in row order. -/
theorem read_writeMany_planeCells_sampleAddr {n : Nat} {m : Memory} {p : Plane} {v : Vector Byte n} (hm : m.wf = true)
    (hb : Memory.firstAddr ≤ planeBase p) (he : planeBase p + n ≤ Memory.endAddr) {x y : Nat}
    (hxy : planeWidth p * y + x < n) :
    (m.writeMany (planeCells p v)).read (sampleAddr p x y) = v[planeWidth p * y + x] := by
  rw [sampleAddr_eq_base_add]
  exact read_writeMany_planeCells hm hb he ⟨_, hxy⟩

theorem writeMany_planeCells_wf {n : Nat} {m : Memory} {p : Plane} {v : Vector Byte n} (hm : m.wf = true)
    (hb : Memory.firstAddr ≤ planeBase p) (he : planeBase p + n ≤ Memory.endAddr) :
    (m.writeMany (planeCells p v)).wf = true := by
  refine Memory.writeMany_wf hm fun c hc => ?_
  obtain ⟨j, rfl⟩ := mem_planeCells.mp hc
  exact ⟨by omega, by omega⟩

/-- What the predictor can read of luma is `PX.Y` sample by sample (R97, R99). -/
theorem State.lumaPlane_eq_memRead (s : State) :
    s.lumaPlane = Vector.ofFn fun j : Fin 256 => s.memRead .y (j.val % 16) (j.val / 16) := by
  refine congrArg Vector.ofFn (funext fun j => ?_)
  have hj : planeWidth .y * (j.val / 16) + j.val % 16 = j.val := Nat.div_add_mod j.val 16
  rw [State.memRead, sampleAddr_eq_base_add, hj]

/-! ### The three commands (R101 to R103) -/

/-- A prediction changes nothing but the samples it writes and the record of its request (R104). -/
theorem State.writeSamples_request_keeps (s : State) (r : PredRequest) (l : List Host.Cell) :
    (s.request r).writeSamples l = { s with px := ((s.request r).writeSamples l).px, preqs := r :: s.preqs } :=
  rfl

theorem exec_predc (s : State) : exec .predc s =
    .next ((s.request { kind := .chroma, mode := s.hdr.cmode, col := 0#2, row := 0#2 }).writeSamples
      (planeCells .u (Config.predC s.hdr.cmode s.ctx).1 ++ planeCells .v (Config.predC s.hdr.cmode s.ctx).2)) :=
  rfl

theorem exec_predy (s : State) : exec .predy s =
    .next ((s.request { kind := .lumaMb, mode := s.hdr.ymode, col := 0#2, row := 0#2 }).writeSamples
      (planeCells .y (Config.predY s.hdr.ymode s.ctx))) :=
  rfl

theorem exec_predb {col row : BitVec 2} {b : Fin 16} (hb : b.val = 4 * row.toNat + col.toNat) (s : State) :
    exec (.predb col row) s =
      .next ((s.request { kind := .lumaSb, mode := s.bmode[b], col := col, row := row }).writeSamples
        (blockCells .y col.toNat row.toNat fun j => (Config.predB s.bmode[b] col row s.lumaPlane s.ctx)[j])) := by
  obtain rfl : b = lumaBlock col row := Fin.ext hb
  rfl

/-- Settles O14: `U` is written, then `V`, which lies above all of `U`. -/
theorem predcResult : Obligations.PredcResult := by
  refine ⟨rfl, fun s => ⟨_, exec_predc s, s.writeSamples_request_keeps _ _, fun a ha => ?_, fun hw x y => ?_⟩⟩
  · rw [State.writeSamples_px, State.request_px, Memory.writeMany_append,
      read_writeMany_planeCells_of_outside (by simp only [planeBase]; omega),
      read_writeMany_planeCells_of_outside (by simp only [planeBase]; omega)]
  · have hu : planeWidth .u * y.val + x.val < 64 := by simp only [planeWidth]; omega
    have hv : planeWidth .v * y.val + x.val < 64 := by simp only [planeWidth]; omega
    have hwu := writeMany_planeCells_wf (p := .u) (v := (Config.predC s.hdr.cmode s.ctx).1) hw (by decide) (by decide)
    simp only [State.memRead, State.writeSamples_px, State.request_px, Memory.writeMany_append]
    constructor
    · have hbelow : sampleAddr .u x.val y.val < planeBase .v := by rw [sampleAddr_eq_base_add]; simp only [planeBase]; omega
      rw [read_writeMany_planeCells_of_outside (.inl hbelow)]
      exact read_writeMany_planeCells_sampleAddr hw (by decide) (by decide) hu
    · exact read_writeMany_planeCells_sampleAddr hwu (by decide) (by decide) hv

/-- Settles O15: the plane `Y` is written whole, whatever `HDR.PB`. -/
theorem predyResult : Obligations.PredyResult := by
  refine ⟨rfl, fun s => ⟨_, exec_predy s, s.writeSamples_request_keeps _ _, fun a ha => ?_, fun hw x y => ?_⟩⟩
  · rw [State.writeSamples_px, State.request_px, read_writeMany_planeCells_of_outside ha]
  · have hxy : planeWidth .y * y.val + x.val < 256 := by simp only [planeWidth]; omega
    rw [State.memRead, State.writeSamples_px, State.request_px]
    exact read_writeMany_planeCells_sampleAddr hw (by decide) (by decide) hxy

/-- Settles O16: the answer is taken from the old `PX.Y`, then one sub-block is written. -/
theorem predbResult : Obligations.PredbResult := by
  intro s col row b hb
  refine ⟨(BitVec.or_assoc _ _ _).symm, _, exec_predb hb s, s.writeSamples_request_keeps _ _, fun a ha => ?_,
    fun hw i k => ?_⟩
  · rw [State.writeSamples_px, State.request_px, read_writeMany_blockCells_of_not_inBlock ha]
  · rw [← State.lumaPlane_eq_memRead, State.memRead, ← blockAddr_indexAt, State.writeSamples_px, State.request_px,
      read_writeMany_blockCells hw (blockAddr_y_range col.isLt row.isLt)]

end Sys2Proof.Machine
end

section
/-! PROOFS about acceptance and the single steps of 43_orchestrator.md: what a write of `CMD` starts (R105, R106), the core
step (R107, R120, R121), and the action and the target at each place of the sequencer (R109 to R119). -/

namespace Sys2Proof.Machine

/-! ### Acceptance (R105, R106) -/

/-- Settles O13: the meaning of `RUNMB` is the start of the sequencer. -/
theorem runmbStartsTheSequencer : Obligations.RunmbStartsTheSequencer := fun _ => rfl

theorem decode_runmb : decode 0x1000#16 = .ok .runmb := decodeOfEncode .runmb rfl

theorem State.accept_runmb (s : State) :
    s.accept 0x1000#16 = .next (s.clearOnAccept.start { ph := .cPred, n := 0#4 }) := by
  simp only [State.accept, decode_runmb]
  rfl

theorem State.accept_of_microOp (s : State) {w : Word} {i : Instr} (hd : decode w = .ok i) (hi : i ≠ .runmb) :
    s.accept w = .next (s.clearOnAccept.startDirect w) := by
  cases i with
  | runmb => contradiction
  | _ => simp only [State.accept, hd]

/-- A legal word other than `RUNMB`'s decodes to a micro-op (R66, R106). -/
theorem exists_microOp_of_mem_legalWords {w : Word} (hw : w ∈ legalWords) (hne : w ≠ 0x1000#16) :
    ∃ i, decode w = .ok i ∧ i ≠ .runmb := by
  obtain ⟨i, hd⟩ := (mem_legalWords_iff w).mpr hw
  refine ⟨i, hd, ?_⟩
  rintro rfl
  exact hne (encodeOfDecode w _ hd).2.symm

/-- Settles O31: the cases of a write of `CMD`, and of the word that an idle core accepts. -/
theorem acceptanceOfACommand : Obligations.AcceptanceOfACommand := by
  obtain ⟨-, -, -, -, -, -, hillegal⟩ := illegalWordsAreRejected
  refine fun s w => ⟨hillegal s w, fun hi hw => ?_, fun hi hw hne => ?_, fun hf hb => State.hostWrite_of_busy hf hb,
    fun hf => if_pos hf⟩
  · subst hw
    exact (State.hostWrite_cmd_of_idle hi _).trans s.accept_runmb
  · obtain ⟨i, hd, hrun⟩ := exists_microOp_of_mem_legalWords hw hne
    exact (State.hostWrite_cmd_of_idle hi w).trans (s.accept_of_microOp hd hrun)

/-! ### One core step (R107, R120, R121) -/

theorem coreStep_of_not_running {s : State} (hr : s.isRunning = false) : coreStep s = .next s := by
  simp only [coreStep, hr, Bool.false_eq_true, if_false]

theorem coreStep_of_run {s : State} {i : Instr} (hr : s.isRunning = true) (ha : s.seqAction = some (.run i)) :
    coreStep s = afterMicroOp (exec i s) s.seqTarget := by
  simp only [coreStep, hr, ha, if_true]

theorem coreStep_of_skip {s : State} (hr : s.isRunning = true) (ha : s.seqAction = some .skip) :
    coreStep s = .next (s.advance s.seqTarget) := by
  simp only [coreStep, hr, ha, if_true]

theorem afterMicroOp_of_no_fault {u : State} {o : Option Sequencer} (hf : u.status.fault = false) :
    afterMicroOp (.next u) o = .next (u.advance o) := by
  simp only [afterMicroOp, hf, Bool.false_eq_true, if_false]

theorem State.directAction_of_decode {s : State} {i : Instr} (hd : decode s.cur = .ok i) (hi : i ≠ .runmb) :
    s.directAction = some (.run i) := by
  cases i with
  | runmb => contradiction
  | _ => simp only [State.directAction, hd]

theorem State.seqAction_direct {s : State} {i : Instr} (hs : s.seq = { ph := .direct, n := 0#4 })
    (hd : decode s.cur = .ok i) (hi : i ≠ .runmb) : s.seqAction = some (.run i) := by
  simp only [State.seqAction, hs, onlyAtZero, if_true, directAction_of_decode hd hi]

theorem coreStep_direct {s : State} {i : Instr} (hr : s.isRunning = true) (hs : s.seq = { ph := .direct, n := 0#4 })
    (hd : decode s.cur = .ok i) (hi : i ≠ .runmb) : coreStep s = afterMicroOp (exec i s) none := by
  rw [coreStep_of_run hr (State.seqAction_direct hs hd hi), State.seqTarget, hs]

/-- The meaning of a term that has a word answers a next state, from every state: only a chroma term off its grid is
refused (R66 (e)). -/
theorem exists_exec_eq_next {i : Instr} (hi : i.wellFormed = true) (s : State) : ∃ t, exec i s = .next t := by
  cases i with
  | idctU col row => simp only [exec, execIdctU, uBlock_eq_some hi, Host.Outcome.next.injEq, exists_eq']
  | idctV col row => simp only [exec, execIdctV, vBlock_eq_some hi, Host.Outcome.next.injEq, exists_eq']
  | _ => exact ⟨_, rfl⟩

theorem exists_exec_of_decode {w : Word} {i : Instr} (hd : decode w = .ok i) (s : State) : ∃ t, exec i s = .next t :=
  exists_exec_eq_next (encodeOfDecode w i hd).1 s

theorem step_of_coreStep_event {s : State} {rest : List Event} (h : s.events = .coreStep :: rest) :
    step s = coreStep { s with events := rest } := by
  simp only [step, h]

theorem step_of_no_event {s : State} (h : s.events = []) : step s = coreStep { s with events := [] } := by
  have hs : ({ s with events := [] } : State) = s := by rw [← h]
  rw [hs]
  simp only [step, h]

/-- Settles O33: either way to a core step leads to the one at `(DIRECT, 0)`. -/
theorem directStepRunsTheLatchedCommand : Obligations.DirectStepRunsTheLatchedCommand := by
  intro s i rest hr hs hd hi hev
  have hstep : step s = coreStep { s with events := rest } := by
    rcases hev with h | ⟨h, rfl⟩
    · exact step_of_coreStep_event h
    · exact step_of_no_event h
  obtain ⟨t, ht⟩ := exists_exec_of_decode hd { s with events := rest }
  refine ⟨t, ht, ?_⟩
  rw [hstep, coreStep_direct (s := { s with events := rest }) hr hs hd hi, ht]
  rfl

theorem ofNat_toNat_mod (w : Word) : BitVec.ofNat 16 (w.toNat % 2 ^ 16) = w := by
  rw [Nat.mod_eq_of_lt w.isLt, BitVec.ofNat_toNat, BitVec.setWidth_eq]

/-- The idle state that `withFetchWord` starts from. -/
def State.toIdle (s : State) : State :=
  { s with
    status := { s.status with busy := false, fault := false, fcode := .none }
    seq := { ph := .idle, n := 0#4 }
    finfo := 0#16 }

theorem State.withFetchWord_of_microOp (s : State) {w : Word} {i : Instr} (hd : decode w = .ok i) (hi : i ≠ .runmb) :
    s.withFetchWord 16 w.toNat =
      { s.toIdle.clearOnAccept.startDirect w with events := .coreStep :: s.events } := by
  cases i with
  | runmb => contradiction
  | _ => simp only [withFetchWord, ofNat_toNat_mod, hd, toIdle]

theorem State.withFetchWord_runmb (s : State) :
    s.withFetchWord 16 (0x1000#16).toNat =
      { s.toIdle with events := .hostWrite 0x000#11 0x1000#16 :: s.events } := by
  simp only [withFetchWord, ofNat_toNat_mod, decode_runmb, toIdle]

/-- Settles O34: the word stands in `CUR` with its core step next, or is the word of the host's write that is next. -/
theorem stepRunsTheFetchedWord : Obligations.StepRunsTheFetchedWord := by
  intro s w i hd
  refine ⟨fun hi => ?_, fun hi => ?_⟩
  · calc step (s.withFetchWord 16 w.toNat)
        = coreStep (s.toIdle.clearOnAccept.startDirect w) := by rw [s.withFetchWord_of_microOp hd hi]; rfl
      _ = _ := coreStep_direct rfl rfl hd hi
  · subst hi
    obtain rfl : 0x1000#16 = w := (encodeOfDecode w _ hd).2
    calc step (s.withFetchWord 16 (0x1000#16).toNat)
        = s.toIdle.hostWrite 0x000#11 0x1000#16 := by rw [s.withFetchWord_runmb]; rfl
      _ = s.toIdle.accept 0x1000#16 := State.hostWrite_cmd_of_idle rfl _
      _ = _ := s.toIdle.accept_runmb

/-- Settles O38: the sequencer has no target, so the step ends the command. -/
theorem endOfACommand : Obligations.EndOfACommand := by
  intro s u i hr ha htarget hu hf
  refine ⟨u.endCommand, ?_, State.isIdle_iff.mpr ⟨rfl, hf⟩, rfl⟩
  rw [coreStep_of_run hr ha, hu, htarget, afterMicroOp_of_no_fault hf, State.advance]

/-- Settles O39: the core is not running, so either way to a core step leaves it as it is. -/
theorem idleCoreRests : Obligations.IdleCoreRests := by
  intro s rest hi
  have hr : s.isRunning = false := by simp [State.isRunning, State.isIdle_iff.mp hi]
  refine ⟨fun h => ?_, fun h => ?_⟩
  · rw [step_of_no_event h, coreStep_of_not_running (s := { s with events := [] }) hr, ← h]
  · rw [step_of_coreStep_event h]
    exact coreStep_of_not_running hr

/-! ### The steps of the sequencer's phases (R110 to R119) -/

theorem lumaCol_ofNat (n : Fin 16) : lumaCol (BitVec.ofNat 4 n.val) = BitVec.ofNat 2 (n.val % 4) := by
  revert n; decide

theorem lumaRow_ofNat (n : Fin 16) : lumaRow (BitVec.ofNat 4 n.val) = BitVec.ofNat 2 (n.val / 4) := by
  revert n; decide

/-- The micro-op of chroma block `16 + n` (R111). -/
theorem chromaInstr_ofNat (n : Fin 8) : chromaInstr (BitVec.ofNat 4 n.val) =
    if n.val < 4 then .idctU (BitVec.ofNat 2 (n.val % 2)) (BitVec.ofNat 2 (n.val % 4 / 2))
    else .idctV (BitVec.ofNat 2 (n.val % 2)) (BitVec.ofNat 2 (n.val % 4 / 2)) := by
  revert n; decide

/-- The position bits of luma block `n` are `n` (R62, R63, R109). -/
theorem positionBits_ofNat (n : Fin 16) :
    positionBits (BitVec.ofNat 2 (n.val % 4)) (BitVec.ofNat 2 (n.val / 4)) = BitVec.ofNat 16 n.val := by
  revert n; decide

theorem countTo_ofNat {last n : Nat} (hn : n < 16) (ph : Phase) (after : Option Sequencer) :
    countTo last ph (BitVec.ofNat 4 n) after =
      if n < last then some { ph := ph, n := BitVec.ofNat 4 (n + 1) } else after := by
  have htoNat : (BitVec.ofNat 4 n).toNat = n := Nat.mod_eq_of_lt hn
  rw [countTo, htoNat, BitVec.ofNat_add]

theorem State.chromaAction_ofNat (s : State) (n : Fin 8) : s.chromaAction (BitVec.ofNat 4 n.val) =
    some (if s.cb[16 + n.val].coded then .run (chromaInstr (BitVec.ofNat 4 n.val)) else .skip) := by
  have htoNat : (BitVec.ofNat 4 n.val).toNat = n.val := Nat.mod_eq_of_lt (by omega)
  simp only [chromaAction, htoNat, dif_pos n.isLt]

section Places

/-! The action and the target at each place of the sequencer. -/

variable {s : State}

theorem State.seqAction_cPred (hs : s.seq = { ph := .cPred, n := 0#4 }) : s.seqAction = some (.run .predc) := by
  rw [seqAction, hs]
  rfl

theorem State.seqTarget_cPred (hs : s.seq = { ph := .cPred, n := 0#4 }) :
    s.seqTarget = some (if s.hdr.hnz then { ph := .cIdct, n := 0#4 } else s.lumaEntry) := by
  rw [seqTarget, hs]

theorem State.seqAction_yPred (hs : s.seq = { ph := .yPred, n := 0#4 }) : s.seqAction = some (.run .predy) := by
  rw [seqAction, hs]
  rfl

theorem State.seqTarget_yPred (hs : s.seq = { ph := .yPred, n := 0#4 }) :
    s.seqTarget = if s.hdr.hnz = false then none
      else if s.cb[24].coded then some { ph := .yCopy, n := 0#4 } else some { ph := .yIdctD, n := 0#4 } := by
  rw [seqTarget, hs]
  rfl

theorem State.seqAction_yCopy (hs : s.seq = { ph := .yCopy, n := 0#4 }) : s.seqAction = some (.run .copyy) := by
  rw [seqAction, hs]
  rfl

theorem State.seqTarget_yCopy (hs : s.seq = { ph := .yCopy, n := 0#4 }) :
    s.seqTarget = some { ph := .yWht, n := 0#4 } := by
  rw [seqTarget, hs]

theorem State.seqAction_yWht (hs : s.seq = { ph := .yWht, n := 0#4 }) : s.seqAction = some (.run .wht) := by
  rw [seqAction, hs]
  rfl

theorem State.seqTarget_yWht (hs : s.seq = { ph := .yWht, n := 0#4 }) :
    s.seqTarget = some { ph := .yIdctW, n := 0#4 } := by
  rw [seqTarget, hs]

theorem State.seqAction_cIdct {n : Fin 8} (hs : s.seq = { ph := .cIdct, n := BitVec.ofNat 4 n.val }) :
    s.seqAction = some (if s.cb[16 + n.val].coded then .run (chromaInstr (BitVec.ofNat 4 n.val)) else .skip) := by
  rw [seqAction, hs, ← chromaAction_ofNat]

theorem State.seqTarget_cIdct {n : Fin 8} (hs : s.seq = { ph := .cIdct, n := BitVec.ofNat 4 n.val }) :
    s.seqTarget = countTo 7 .cIdct (BitVec.ofNat 4 n.val) (some s.lumaEntry) := by
  rw [seqTarget, hs]

variable {n : Fin 16}

theorem State.seqAction_yIdctW (hs : s.seq = { ph := .yIdctW, n := BitVec.ofNat 4 n.val }) :
    s.seqAction = some (.run (.idctW (BitVec.ofNat 2 (n.val % 4)) (BitVec.ofNat 2 (n.val / 4)))) := by
  rw [← lumaCol_ofNat, ← lumaRow_ofNat, seqAction, hs]

theorem State.seqTarget_yIdctW (hs : s.seq = { ph := .yIdctW, n := BitVec.ofNat 4 n.val }) :
    s.seqTarget = countTo 15 .yIdctW (BitVec.ofNat 4 n.val) none := by
  rw [seqTarget, hs]

theorem State.seqAction_yIdctD (hs : s.seq = { ph := .yIdctD, n := BitVec.ofNat 4 n.val }) :
    s.seqAction = some (.run (.idctY (BitVec.ofNat 2 (n.val % 4)) (BitVec.ofNat 2 (n.val / 4)))) := by
  rw [← lumaCol_ofNat, ← lumaRow_ofNat, seqAction, hs]

theorem State.seqTarget_yIdctD (hs : s.seq = { ph := .yIdctD, n := BitVec.ofNat 4 n.val }) :
    s.seqTarget = countTo 15 .yIdctD (BitVec.ofNat 4 n.val) none := by
  rw [seqTarget, hs]

theorem State.seqAction_bPred (hs : s.seq = { ph := .bPred, n := BitVec.ofNat 4 n.val }) :
    s.seqAction = some (.run (.predb (BitVec.ofNat 2 (n.val % 4)) (BitVec.ofNat 2 (n.val / 4)))) := by
  rw [← lumaCol_ofNat, ← lumaRow_ofNat, seqAction, hs]

theorem State.seqTarget_bPred (hs : s.seq = { ph := .bPred, n := BitVec.ofNat 4 n.val }) :
    s.seqTarget = if s.hdr.hnz then some { ph := .bIdct, n := BitVec.ofNat 4 n.val }
      else countTo 15 .bPred (BitVec.ofNat 4 n.val) none := by
  rw [seqTarget, hs]

theorem State.seqAction_bIdct (hs : s.seq = { ph := .bIdct, n := BitVec.ofNat 4 n.val }) :
    s.seqAction = some (.run (.idctY (BitVec.ofNat 2 (n.val % 4)) (BitVec.ofNat 2 (n.val / 4)))) := by
  rw [← lumaCol_ofNat, ← lumaRow_ofNat, seqAction, hs]

theorem State.seqTarget_bIdct (hs : s.seq = { ph := .bIdct, n := BitVec.ofNat 4 n.val }) :
    s.seqTarget = countTo 15 .bPred (BitVec.ofNat 4 n.val) none := by
  rw [seqTarget, hs]

end Places

/-! ### What a legal state says of its phase (R110 to R119) -/

theorem State.phaseLegal_of_inv {s : State} (h : s.inv = true) : s.phaseLegal = true := (State.inv_iff.mp h).2.2

theorem State.conditions_cIdct {s : State} (h : s.phaseLegal = true) (hph : s.seq.ph = .cIdct) :
    s.seq.n.toNat < 8 ∧ s.hdr.hnz = true := by
  simp only [phaseLegal, hph, Bool.and_eq_true, decide_eq_true_eq] at h
  exact ⟨h.1.2, h.2⟩

theorem State.conditions_yWht {s : State} (h : s.phaseLegal = true) (hph : s.seq.ph = .yWht) :
    s.hdr.pb = false ∧ s.y2Coded = true ∧ s.copyNotPending = false := by
  simp only [phaseLegal, hph, y2Path, Bool.and_eq_true, Bool.not_eq_true'] at h
  obtain ⟨⟨-, ⟨hpb, -⟩, hy2⟩, hcopy⟩ := h
  exact ⟨hpb, hy2, hcopy⟩

theorem State.conditions_yIdctW {s : State} (h : s.phaseLegal = true) (hph : s.seq.ph = .yIdctW) (k : Fin 16) :
    s.wc[k].tag = .yWithoutY2 := by
  simp only [phaseLegal, hph, Bool.and_eq_true] at h
  exact of_decide_eq_true h.2 k

theorem State.conditions_yIdctD {s : State} (h : s.phaseLegal = true) (hph : s.seq.ph = .yIdctD) :
    s.cb[24].coded = false := by
  simp only [phaseLegal, hph, Bool.and_eq_true, Bool.not_eq_true'] at h
  exact h.2

theorem State.conditions_bIdct {s : State} (h : s.phaseLegal = true) (hph : s.seq.ph = .bIdct) :
    s.hdr.pb = true ∧ s.hdr.hnz = true := by
  simp only [phaseLegal, hph, Bool.and_eq_true] at h
  exact ⟨h.1.2, h.2⟩

/-! ### The phases' statements -/

/-- Settles O35: the action and the target of the two phases. -/
theorem chromaPhaseSteps : Obligations.ChromaPhaseSteps := by
  intro s hr entry
  refine ⟨fun h hph => (State.conditions_cIdct (State.phaseLegal_of_inv h) hph).2, fun hs => ?_, fun n hs => ?_⟩
  · rw [coreStep_of_run hr (State.seqAction_cPred hs), State.seqTarget_cPred hs, State.lumaEntry]
  · intro target col row
    have ha := State.seqAction_cIdct hs
    have htarget : s.seqTarget = some target := by
      rw [State.seqTarget_cIdct hs, countTo_ofNat (by omega), ← apply_ite some]
      rfl
    refine ⟨fun hc => ?_, fun hc hlt => ?_, fun hc hle => ?_, (BitVec.or_assoc _ _ _).symm,
      (BitVec.or_assoc _ _ _).symm⟩
    · rw [if_neg (by simp [hc])] at ha
      rw [coreStep_of_skip hr ha, htarget, State.advance, State.goto]
    · rw [if_pos hc, chromaInstr_ofNat, if_pos hlt] at ha
      rw [coreStep_of_run hr ha, htarget]
    · rw [if_pos hc, chromaInstr_ofNat, if_neg (Nat.not_lt.mpr hle)] at ha
      rw [coreStep_of_run hr ha, htarget]

/-- Settles O36: the action and the target of each phase; what a legal state says of `Y_WHT` and `Y_IDCT_D`. -/
theorem wholeMacroblockSteps : Obligations.WholeMacroblockSteps := by
  intro s hr
  refine ⟨fun hs => ?_, fun hs => ?_, fun hs => ?_, fun n => ⟨fun hs => ?_, fun hs => ?_, ?_, ?_⟩, fun h hph => ?_,
    fun h hph k => ?_⟩
  · rw [coreStep_of_run hr (State.seqAction_yPred hs), State.seqTarget_yPred hs]
  · rw [coreStep_of_run hr (State.seqAction_yCopy hs), State.seqTarget_yCopy hs]
  · rw [coreStep_of_run hr (State.seqAction_yWht hs), State.seqTarget_yWht hs]
  · rw [coreStep_of_run hr (State.seqAction_yIdctW hs), State.seqTarget_yIdctW hs, countTo_ofNat n.isLt]
  · rw [coreStep_of_run hr (State.seqAction_yIdctD hs), State.seqTarget_yIdctD hs, countTo_ofNat n.isLt]
  · rw [encode, positionBits_ofNat]
  · rw [encode, positionBits_ofNat]
  · obtain ⟨hpb, hy2, hcopy⟩ := State.conditions_yWht (State.phaseLegal_of_inv h) hph
    refine ⟨hpb, hy2, fun k => ?_⟩
    by_contra htag
    cases hcopy.symm.trans (State.copyNotPending_iff.mpr ⟨k, htag⟩)
  · exact State.operandCB_luma_final (.inr (State.conditions_yIdctD (State.phaseLegal_of_inv h) hph)) k

/-- Settles O37: the action and the target of the two phases; what a legal state says of `B_IDCT`. -/
theorem perBlockSteps : Obligations.PerBlockSteps := by
  intro s hr n
  refine ⟨fun hs => ?_, fun hs => ?_, ?_, ?_, fun h hph => ?_⟩
  · rw [coreStep_of_run hr (State.seqAction_bPred hs), State.seqTarget_bPred hs, countTo_ofNat n.isLt]
  · rw [coreStep_of_run hr (State.seqAction_bIdct hs), State.seqTarget_bIdct hs, countTo_ofNat n.isLt]
  · rw [encode, positionBits_ofNat]
  · rw [encode, positionBits_ofNat]
  · obtain ⟨hpb, hnz⟩ := State.conditions_bIdct (State.phaseLegal_of_inv h) hph
    exact ⟨hnz, hpb, State.operandCB_luma_final (.inl hpb) n⟩

end Sys2Proof.Machine
end

section
/-! PROOFS about the runs of 43_orchestrator.md: the actions left at each place of the sequencer, that no step but a direct
one faults (R123 (c)), that every command ends (R123 (f)), and that a run is the program of R108 (R123 (a), (b)). -/

namespace Sys2Proof.Machine

/-! ### Micro-ops one after another -/

theorem execAll_cons {i : Instr} {l : List Instr} {s t : State} :
    execAll (i :: l) s = .next t ↔ ∃ u, exec i s = .next u ∧ execAll l u = .next t := by
  rw [execAll]
  cases exec i s <;> simp

theorem execAll_append {l l' : List Instr} {s t : State} :
    execAll (l ++ l') s = .next t ↔ ∃ u, execAll l s = .next u ∧ execAll l' u = .next t := by
  induction l generalizing s with
  | nil => simp [execAll]
  | cons i l ih =>
    simp only [List.cons_append, execAll_cons, ih]
    constructor
    · rintro ⟨v, hv, u, hu, ht⟩
      exact ⟨u, ⟨v, hv, hu⟩, ht⟩
    · rintro ⟨u, ⟨v, hv, hu⟩, ht⟩
      exact ⟨v, hv, u, hu, ht⟩

theorem coreSteps_succ {k : Nat} {s u : State} (h : coreStep s = .next u) : coreSteps (k + 1) s = coreSteps k u := by
  rw [coreSteps, h]

theorem State.goto_lumaPlane (s : State) (q : Sequencer) : (s.goto q).lumaPlane = s.lumaPlane := rfl

theorem State.goto_lumaTag (s : State) (q : Sequencer) : (s.goto q).lumaTag = s.lumaTag := rfl

theorem State.goto_writeSamples_request (s : State) (q : Sequencer) (r : PredRequest) (l : List Host.Cell) :
    ((s.goto q).request r).writeSamples l = ((s.request r).writeSamples l).goto q := rfl

theorem State.goto_accumulated (s : State) (q : Sequencer) (r : Vector Int 16) (p : Plane) (col row : Nat) :
    (s.goto q).accumulated r p col row = s.accumulated r p col row := rfl

theorem State.idctInto_goto {s : State} {word : Word} {op : Coefs × Tag} {p : Plane} {col row : Nat}
    (hf : (s.idctInto word op p col row).status.fault = false) (q : Sequencer) :
    (s.goto q).idctInto word op p col row = (s.idctInto word op p col row).goto q := by
  unfold State.idctInto at hf ⊢
  split
  · next h =>
    rw [if_pos h] at hf
    cases hf
  · rw [goto_accumulated, goto_px]
    simp only [goto]

theorem exec_chroma_goto {i : Instr} (hi : isChromaOp i = true) {s u : State} (h : exec i s = .next u)
    (hf : u.status.fault = false) (q : Sequencer) : exec i (s.goto q) = .next (u.goto q) := by
  rcases exec_chroma_cases hi with rfl | e | ⟨word, b, p, col, row, -, -, -, -, -, e⟩
  · obtain rfl := Host.Outcome.next.inj h
    simp only [exec, execPredc, State.goto_ctx, State.goto_hdr, State.goto_writeSamples_request]
  · cases (e s).symm.trans h
  · obtain rfl := Host.Outcome.next.inj ((e s).symm.trans h)
    exact (e (s.goto q)).trans (congrArg _ (State.idctInto_goto hf q))

/-- A micro-op that raises no fault neither reads nor writes `SEQ`. -/
theorem exec_goto {i : Instr} {s u : State} (hi : i ≠ .runmb) (h : exec i s = .next u) (hf : u.status.fault = false)
    (q : Sequencer) : exec i (s.goto q) = .next (u.goto q) := by
  cases i with
  | runmb => contradiction
  | predc | idctU col row | idctV col row => exact exec_chroma_goto rfl h hf q
  | predy | predb col row =>
    obtain rfl := Host.Outcome.next.inj h
    simp only [exec, execPredy, execPredb, State.goto_ctx, State.goto_hdr, State.goto_bmode, State.goto_lumaPlane,
      State.goto_writeSamples_request]
  | copyy =>
    obtain rfl := Host.Outcome.next.inj h
    simp only [exec, execCopyy, State.goto_lumaTag, State.goto_cb]
    simp only [State.goto]
  | idctY col row | idctW col row =>
    obtain rfl := Host.Outcome.next.inj h
    exact congrArg _ (State.idctInto_goto hf q)
  | wht =>
    rcases execWht_cases s with ⟨-, e⟩ | ⟨-, -, e⟩ | ⟨-, -, -, e⟩ | ⟨hpb, hy2, hcopy, e⟩ <;> rw [e] at h <;>
      obtain rfl := Host.Outcome.next.inj h
    · cases hf
    · cases hf
    · cases hf
    · exact exec_wht_of_pending (s := s.goto q) hpb hy2 hcopy

/-! ### What is left of a run (R108, R109) -/

/-- The micro-ops an action dispatches, one or none (R107). -/
def SeqAction.microOps : SeqAction → List Instr
  | .run i => [i]
  | .skip => []

/-- The actions of `C_IDCT` from index `n` on (R111). -/
def State.chromaActions (s : State) (n : Nat) : List SeqAction :=
  ((List.finRange 8).drop n).map fun b =>
    if s.cb[16 + b.val].coded then .run (chromaInstr (BitVec.ofNat 4 b.val)) else .skip

/-- The actions of a walk over the luma blocks from block `n` on, a list of micro-ops for each (R116 to R119). -/
def rasterActions (f : BitVec 2 → BitVec 2 → List Instr) (n : Nat) : List SeqAction :=
  ((List.range 16).drop n).flatMap fun k => (f (BitVec.ofNat 2 (k % 4)) (BitVec.ofNat 2 (k / 4))).map .run

/-- The micro-ops of one luma block in per-block mode (R118, R119). -/
def blockOps (hnz : Bool) (col row : BitVec 2) : List Instr :=
  .predb col row :: (if hnz then [.idctY col row] else [])

/-- The actions from `Y_IDCT_W` on (R116). -/
def patchedActions (n : Nat) : List SeqAction := rasterActions (fun col row => [.idctW col row]) n

/-- The actions from `Y_IDCT_D` on (R117). -/
def directActions (n : Nat) : List SeqAction := rasterActions (fun col row => [.idctY col row]) n

/-- The actions from `LumaEntry` on (R112, R113, R118). -/
def State.lumaActions (s : State) : List SeqAction :=
  if s.hdr.pb then rasterActions (blockOps s.hdr.hnz) 0
  else .run .predy ::
    (if s.hdr.hnz then
      if s.y2Coded then .run .copyy :: .run .wht :: patchedActions 0 else directActions 0
    else [])

/-- The actions of the core steps from the place `SEQ` names to the end of the run (R110 to R119). -/
def State.actionsLeft (s : State) : List SeqAction :=
  match s.seq.ph with
  | .idle => []
  | .cPred => .run .predc :: ((if s.hdr.hnz then s.chromaActions 0 else []) ++ s.lumaActions)
  | .cIdct => s.chromaActions s.seq.n.toNat ++ s.lumaActions
  | .yPred => s.lumaActions
  | .yCopy => .run .copyy :: .run .wht :: patchedActions 0
  | .yWht => .run .wht :: patchedActions 0
  | .yIdctW => patchedActions s.seq.n.toNat
  | .yIdctD => directActions s.seq.n.toNat
  | .bPred => rasterActions (blockOps s.hdr.hnz) s.seq.n.toNat
  | .bIdct =>
    .run (.idctY (lumaCol s.seq.n) (lumaRow s.seq.n)) :: rasterActions (blockOps s.hdr.hnz) (s.seq.n.toNat + 1)
  | .direct => []
  | .faulted => []

/-- The actions after a move of the sequencer; none after `END`. -/
def State.actionsFrom (s : State) : Option Sequencer → List SeqAction
  | some q => (s.goto q).actionsLeft
  | none => []

theorem State.chromaActions_cons (s : State) (n : Fin 8) : s.chromaActions n.val =
    (if s.cb[16 + n.val].coded then .run (chromaInstr (BitVec.ofNat 4 n.val)) else .skip) ::
      s.chromaActions (n.val + 1) := by
  rw [chromaActions, List.drop_eq_getElem_cons (by simp), List.map_cons, List.getElem_finRange]
  rfl

theorem rasterActions_cons (f : BitVec 2 → BitVec 2 → List Instr) (n : Fin 16) : rasterActions f n.val =
    (f (BitVec.ofNat 2 (n.val % 4)) (BitVec.ofNat 2 (n.val / 4))).map .run ++ rasterActions f (n.val + 1) := by
  rw [rasterActions, List.drop_eq_getElem_cons (by simp), List.flatMap_cons, List.getElem_range]
  rfl

/-- What is left of a run is up to `HDR`, `CB` and `SEQ` (R123 (a)). -/
theorem State.actionsLeft_congr {s u : State} (hhdr : u.hdr = s.hdr) (hcb : u.cb = s.cb) (hseq : u.seq = s.seq) :
    u.actionsLeft = s.actionsLeft := by
  have hchroma : u.chromaActions = s.chromaActions := by
    unfold chromaActions
    rw [hcb]
  have hluma : u.lumaActions = s.lumaActions := by
    unfold lumaActions y2Coded
    rw [hcb, hhdr]
  unfold actionsLeft
  rw [hseq, hhdr, hchroma, hluma]

theorem State.actionsLeft_lumaEntry (s : State) : (s.goto s.lumaEntry).actionsLeft = s.lumaActions := by
  cases hpb : s.hdr.pb
  · simp only [lumaEntry, hpb]
    rfl
  · simp only [lumaEntry, actionsLeft, lumaActions, hpb]
    rfl

theorem State.actionsLeft_bIdct (s : State) (n : Fin 16) :
    (s.goto { ph := .bIdct, n := BitVec.ofNat 4 n.val }).actionsLeft =
      .run (.idctY (BitVec.ofNat 2 (n.val % 4)) (BitVec.ofNat 2 (n.val / 4))) ::
        rasterActions (blockOps s.hdr.hnz) (n.val + 1) := by
  have htoNat : (BitVec.ofNat 4 n.val).toNat = n.val := Nat.mod_eq_of_lt n.isLt
  simp only [actionsLeft, goto_seq, goto_hdr, lumaCol_ofNat, lumaRow_ofNat, htoNat]

/-- A walk counted by the sequencer's index goes on with the next block, or with what follows the phase. -/
theorem State.actionsFrom_countTo {s : State} {n : Fin 16} {last : Nat} {ph : Phase} {after : Option Sequencer}
    {rest : Nat → List SeqAction} (hn : n.val ≤ last) (hlast : last < 16)
    (hnext : ∀ m : BitVec 4, (s.goto { ph := ph, n := m }).actionsLeft = rest m.toNat)
    (hend : rest (last + 1) = s.actionsFrom after) :
    s.actionsFrom (countTo last ph (BitVec.ofNat 4 n.val) after) = rest (n.val + 1) := by
  rw [countTo_ofNat n.isLt]
  split
  · next h =>
    have htoNat : (BitVec.ofNat 4 (n.val + 1)).toNat = n.val + 1 := Nat.mod_eq_of_lt (by omega)
    rw [actionsFrom, hnext, htoNat]
  · next h =>
    obtain rfl : n.val = last := by omega
    exact hend.symm

/-- A phase without an index stands at 0 (R109). -/
theorem State.seq_eq_zero {s : State} {ph : Phase} (h : s.phaseLegal = true) (hph : s.seq.ph = ph)
    (hz : ph = .cPred ∨ ph = .yPred ∨ ph = .yCopy ∨ ph = .yWht) : s.seq = { ph := ph, n := 0#4 } := by
  rcases hs : s.seq with ⟨p, n⟩
  rw [hs] at hph
  obtain rfl : p = ph := hph
  rcases hz with rfl | rfl | rfl | rfl <;> simp only [phaseLegal, hs, Bool.and_eq_true, beq_iff_eq] at h <;>
    simp only [h]

theorem State.exists_seq_eq {s : State} {ph : Phase} (hph : s.seq.ph = ph) :
    ∃ n : Fin 16, s.seq.n.toNat = n.val ∧ s.seq = { ph := ph, n := BitVec.ofNat 4 n.val } :=
  ⟨⟨s.seq.n.toNat, s.seq.n.isLt⟩, rfl, by simp [← hph]⟩

/-- Every phase but `DIRECT` has the first of the actions left for its action, and its target at the rest (R109 to
R119). -/
theorem State.seqAction_of_running {s : State} (h : s.phaseLegal = true) (hr : s.isRunning = true)
    (hd : s.seq.ph ≠ .direct) :
    ∃ a, s.seqAction = some a ∧ s.actionsLeft = a :: s.actionsFrom s.seqTarget := by
  obtain ⟨hb, hf⟩ := State.isRunning_iff.mp hr
  cases hph : s.seq.ph with
  | idle => simp [phaseLegal, hph, hb] at h
  | direct => exact absurd hph hd
  | faulted => simp [phaseLegal, hph, hf] at h
  | cPred =>
    have hs := seq_eq_zero h hph (by simp)
    refine ⟨_, seqAction_cPred hs, ?_⟩
    rw [seqTarget_cPred hs, actionsLeft, hph]
    cases hnz : s.hdr.hnz
    · exact congrArg (_ :: ·) s.actionsLeft_lumaEntry.symm
    · rfl
  | cIdct =>
    obtain ⟨n, hn, hs⟩ := exists_seq_eq hph
    have hlt : n.val < 8 := hn ▸ (conditions_cIdct h hph).1
    refine ⟨_, seqAction_cIdct (n := ⟨n.val, hlt⟩) hs, ?_⟩
    have hrest : s.actionsFrom (countTo 7 .cIdct (BitVec.ofNat 4 n.val) (some s.lumaEntry)) =
        s.chromaActions (n.val + 1) ++ s.lumaActions :=
      actionsFrom_countTo (rest := fun k => s.chromaActions k ++ s.lumaActions) (by omega) (by decide) (fun _ => rfl)
        s.actionsLeft_lumaEntry.symm
    simp only [seqTarget_cIdct (n := ⟨n.val, hlt⟩) hs, hrest, actionsLeft, hph, hn,
      s.chromaActions_cons ⟨n.val, hlt⟩, List.cons_append]
  | yPred =>
    have hs := seq_eq_zero h hph (by simp)
    refine ⟨_, seqAction_yPred hs, ?_⟩
    simp only [phaseLegal, hph, Bool.and_eq_true, Bool.not_eq_true'] at h
    rw [seqTarget_yPred hs, actionsLeft, hph, lumaActions, h.2, y2Coded]
    cases s.hdr.hnz <;> cases s.cb[24].coded <;> rfl
  | yCopy =>
    have hs := seq_eq_zero h hph (by simp)
    refine ⟨_, seqAction_yCopy hs, ?_⟩
    rw [seqTarget_yCopy hs, actionsLeft, hph]
    rfl
  | yWht =>
    have hs := seq_eq_zero h hph (by simp)
    refine ⟨_, seqAction_yWht hs, ?_⟩
    rw [seqTarget_yWht hs, actionsLeft, hph]
    rfl
  | yIdctW =>
    obtain ⟨n, hn, hs⟩ := exists_seq_eq hph
    refine ⟨_, seqAction_yIdctW hs, ?_⟩
    have hrest : s.actionsFrom (countTo 15 .yIdctW (BitVec.ofNat 4 n.val) none) = patchedActions (n.val + 1) :=
      actionsFrom_countTo (by omega) (by decide) (fun _ => rfl) rfl
    simp only [seqTarget_yIdctW hs, hrest, actionsLeft, hph, hn]
    exact rasterActions_cons _ n
  | yIdctD =>
    obtain ⟨n, hn, hs⟩ := exists_seq_eq hph
    refine ⟨_, seqAction_yIdctD hs, ?_⟩
    have hrest : s.actionsFrom (countTo 15 .yIdctD (BitVec.ofNat 4 n.val) none) = directActions (n.val + 1) :=
      actionsFrom_countTo (by omega) (by decide) (fun _ => rfl) rfl
    simp only [seqTarget_yIdctD hs, hrest, actionsLeft, hph, hn]
    exact rasterActions_cons _ n
  | bPred =>
    obtain ⟨n, hn, hs⟩ := exists_seq_eq hph
    refine ⟨_, seqAction_bPred hs, ?_⟩
    have hrest : s.actionsFrom (countTo 15 .bPred (BitVec.ofNat 4 n.val) none) =
        rasterActions (blockOps s.hdr.hnz) (n.val + 1) :=
      actionsFrom_countTo (by omega) (by decide) (fun _ => rfl) rfl
    simp only [seqTarget_bPred hs, actionsLeft, hph, hn, rasterActions_cons _ n]
    cases hnz : s.hdr.hnz
    · rw [hnz] at hrest
      exact congrArg (_ :: ·) hrest.symm
    · refine congrArg (_ :: ·) (Eq.symm ?_)
      rw [if_pos rfl, actionsFrom, actionsLeft_bIdct, hnz]
      rfl
  | bIdct =>
    obtain ⟨n, hn, hs⟩ := exists_seq_eq hph
    refine ⟨_, seqAction_bIdct hs, ?_⟩
    have hrest : s.actionsFrom (countTo 15 .bPred (BitVec.ofNat 4 n.val) none) =
        rasterActions (blockOps s.hdr.hnz) (n.val + 1) :=
      actionsFrom_countTo (by omega) (by decide) (fun _ => rfl) rfl
    rw [seqTarget_bIdct hs, hrest, ← actionsLeft_bIdct]
    exact congrArg (fun q => (s.goto q).actionsLeft) hs

/-! ### No dispatched micro-op faults (R123 (c)) -/

theorem chromaInstr_isChromaOp (n : BitVec 4) :
    (chromaInstr n).wellFormed = true ∧ isChromaOp (chromaInstr n) = true := by
  revert n; decide

theorem State.AddsResidual.status_eq {s t : State} {blk : Coefs} {p : Plane} {col row : Nat}
    (h : s.AddsResidual t blk p col row) : t.status = s.status := by
  rw [h.keeps]

/-- The preconditions of each phase's micro-op hold (R123 (c)). -/
theorem exec_dispatched_no_fault {s : State} {i : Instr} (h : s.phaseLegal = true) (hf : s.status.fault = false)
    (hd : s.seq.ph ≠ .direct) (ha : s.seqAction = some (.run i)) :
    ∃ u, exec i s = .next u ∧ u.status.fault = false := by
  have idctY : ∀ col row, s.hdr.pb = true ∨ s.cb[24].coded = false →
      ∃ u, exec (.idctY col row) s = .next u ∧ u.status.fault = false := by
    intro col row hfinal
    obtain ⟨u, hu, hadds⟩ := exec_idctY_addsResidual (b := storeBlock (lumaBlock col row)) rfl hfinal
    exact ⟨u, hu, hadds.status_eq ▸ hf⟩
  unfold State.seqAction at ha
  cases hph : s.seq.ph <;>
    simp only [hph, onlyAtZero_eq_some, Option.some.injEq, SeqAction.run.injEq, reduceCtorEq] at ha
  case cPred => exact ha.2 ▸ ⟨_, rfl, hf⟩
  case yPred => exact ha.2 ▸ ⟨_, rfl, hf⟩
  case yCopy => exact ha.2 ▸ ⟨_, rfl, hf⟩
  case bPred => exact ha ▸ ⟨_, rfl, hf⟩
  case cIdct =>
    obtain rfl : chromaInstr s.seq.n = i := by
      unfold State.chromaAction at ha
      split_ifs at ha
      · exact SeqAction.run.inj (Option.some.inj ha)
      · cases Option.some.inj ha
    obtain ⟨hwf, hchroma⟩ := chromaInstr_isChromaOp s.seq.n
    obtain ⟨u, hu⟩ := exists_exec_eq_next hwf s
    have hsame : u = { s with px := u.px, im := u.im, preqs := u.preqs } := exec_chroma_sameButSamples hchroma hu
    exact ⟨u, hu, by rw [hsame]; exact hf⟩
  case yWht =>
    obtain ⟨hpb, hy2, hcopy⟩ := State.conditions_yWht h hph
    exact ha.2 ▸ ⟨_, exec_wht_of_pending hpb hy2 hcopy, hf⟩
  case yIdctW =>
    subst ha
    obtain ⟨u, hu, hadds⟩ := exec_idctW_addsResidual (k := lumaBlock (lumaCol s.seq.n) (lumaRow s.seq.n)) rfl
      (State.conditions_yIdctW h hph _)
    exact ⟨u, hu, hadds.status_eq ▸ hf⟩
  case yIdctD => exact ha ▸ idctY _ _ (.inr (State.conditions_yIdctD h hph))
  case bIdct => exact ha ▸ idctY _ _ (.inl (State.conditions_bIdct h hph).1)
  case direct => exact absurd hph hd

/-- A step of a run: the first action left, the state `u` its micro-ops leave without a fault, whatever `SEQ` they start
from, and the sequencer's move. -/
structure State.RunStep (s : State) (a : SeqAction) (u : State) : Prop where
  left : s.actionsLeft = a :: s.actionsFrom s.seqTarget
  micro : ∀ q, execAll a.microOps (s.goto q) = .next (u.goto q)
  core : coreStep s = .next (u.advance s.seqTarget)
  fault : u.status.fault = false
  busy : u.status.busy = true
  hdr : u.hdr = s.hdr
  cb : u.cb = s.cb

theorem State.exists_runStep {s : State} (h : s.inv = true) (hr : s.isRunning = true) (hd : s.seq.ph ≠ .direct) :
    ∃ a u, s.RunStep a u := by
  obtain ⟨hb, hf⟩ := State.isRunning_iff.mp hr
  have hph := State.phaseLegal_of_inv h
  obtain ⟨a, ha, hleft⟩ := State.seqAction_of_running hph hr hd
  cases a with
  | skip => exact ⟨.skip, s, hleft, fun _ => rfl, coreStep_of_skip hr ha, hf, hb, rfl, rfl⟩
  | run i =>
    have hi := State.ne_runmb_of_seqAction ha
    obtain ⟨u, hu, huf⟩ := exec_dispatched_no_fault hph hf hd ha
    obtain ⟨hhdr, hcb, hbusy, -, -⟩ := exec_keeps_control hi hu huf
    refine ⟨.run i, u, hleft, fun q => ?_, ?_, huf, hbusy.trans hb, hhdr, hcb⟩
    · exact execAll_cons.mpr ⟨_, exec_goto hi hu huf q, rfl⟩
    · rw [coreStep_of_run hr ha, hu, afterMicroOp_of_no_fault huf]

theorem State.advance_fault (u : State) (o : Option Sequencer) : (u.advance o).status.fault = u.status.fault := by
  cases o <;> rfl

/-- Settles O55: the action's micro-ops raise no fault, and the sequencer's move sets none. -/
theorem runmbStepsNeverFault : Obligations.RunmbStepsNeverFault := by
  intro s h hr hd
  obtain ⟨a, u, hstep⟩ := State.exists_runStep h hr hd
  exact ⟨_, hstep.core, (u.advance_fault _).trans hstep.fault⟩

/-! ### Every step answers a next state (R107) -/

/-- In `DIRECT` the word in `CUR` is a micro-op's (R120). -/
theorem State.conditions_direct {s : State} (h : s.phaseLegal = true) (hph : s.seq.ph = .direct) :
    s.seq = { ph := .direct, n := 0#4 } ∧ ∃ i, decode s.cur = .ok i ∧ i ≠ .runmb := by
  simp only [phaseLegal, hph, Bool.and_eq_true, beq_iff_eq] at h
  obtain ⟨⟨-, hn⟩, hcur⟩ := h
  refine ⟨by rw [← hph, ← hn], ?_⟩
  unfold isMicroOpWord at hcur
  split at hcur
  · cases hcur
  · next i hne hd => exact ⟨i, hd, hne⟩
  · cases hcur

/-- A direct step is its micro-op, and then `END` unless it faulted. -/
theorem coreStep_of_direct {s : State} (h : s.phaseLegal = true) (hr : s.isRunning = true)
    (hph : s.seq.ph = .direct) : ∃ u, coreStep s = .next (if u.status.fault then u else u.endCommand) := by
  obtain ⟨hs, i, hd, hi⟩ := State.conditions_direct h hph
  obtain ⟨u, hu⟩ := exists_exec_of_decode hd s
  exact ⟨u, by rw [coreStep_direct hr hs hd hi, hu]; rfl⟩

theorem exists_coreStep_eq_next {s : State} (h : s.inv = true) : ∃ t, coreStep s = .next t := by
  cases hr : s.isRunning with
  | false => exact ⟨s, coreStep_of_not_running hr⟩
  | true =>
    by_cases hd : s.seq.ph = .direct
    · obtain ⟨u, hstep⟩ := coreStep_of_direct (State.phaseLegal_of_inv h) hr hd
      exact ⟨_, hstep⟩
    · obtain ⟨a, u, hstep⟩ := State.exists_runStep h hr hd
      exact ⟨_, hstep.core⟩

theorem State.exists_hostWrite_eq_next (s : State) (a : HAddr) (v : Word) : ∃ t, s.hostWrite a v = .next t := by
  rcases s.hostWrite_cases a v with ⟨-, e⟩ | ⟨-, -, e⟩ | ⟨-, -, e⟩ | ⟨-, -, e⟩
  · exact ⟨_, e⟩
  · exact ⟨_, e⟩
  · rcases s.accept_cases v with ⟨-, e'⟩ | ⟨-, e'⟩ | ⟨-, e'⟩ <;> exact ⟨_, e.trans e'⟩
  · exact ⟨_, e⟩

/-- Settles O54: by the event that is next. -/
theorem legalStatesAlwaysStep : Obligations.LegalStatesAlwaysStep := by
  intro s h
  rcases step_cases s with ⟨-, e⟩ | ⟨rest, -, e⟩ | ⟨a, rest, -, e⟩ | ⟨a, v, rest, -, e⟩ | ⟨p, rest, -, e⟩ |
    ⟨c, rest, -, e⟩ <;> rw [e]
  · exact exists_coreStep_eq_next h
  · exact exists_coreStep_eq_next (by simpa only [State.inv_events] using h)
  · exact ⟨_, rfl⟩
  · exact State.exists_hostWrite_eq_next _ a v
  · exact ⟨_, rfl⟩
  · exact ⟨_, rfl⟩

/-! ### Whole runs (R123) -/

theorem State.lumaEntry_ph_ne_direct (s : State) : s.lumaEntry.ph ≠ .direct := by
  unfold lumaEntry
  split <;> simp

theorem countTo_ph_ne_direct {last : Nat} {ph : Phase} {n : BitVec 4} {after : Option Sequencer} (hph : ph ≠ .direct)
    (hafter : ∀ q, after = some q → q.ph ≠ .direct) {q : Sequencer} (h : countTo last ph n after = some q) :
    q.ph ≠ .direct := by
  unfold countTo at h
  split at h
  · exact Option.some.inj h ▸ hph
  · exact hafter q h

/-- `DIRECT` is entered by acceptance only (R106). -/
theorem State.seqTarget_ph_ne_direct {s : State} {q : Sequencer} (h : s.seqTarget = some q) : q.ph ≠ .direct := by
  have hentry : ∀ q, some s.lumaEntry = some q → q.ph ≠ .direct :=
    fun q e => Option.some.inj e ▸ s.lumaEntry_ph_ne_direct
  unfold seqTarget at h
  cases hph : s.seq.ph <;> simp only [hph] at h
  case idle | direct | faulted => cases h
  case cPred =>
    split at h
    · cases h; decide
    · exact hentry q h
  case cIdct => exact countTo_ph_ne_direct (by decide) hentry h
  case yPred => split_ifs at h <;> cases h <;> decide
  case yCopy | yWht => cases h; decide
  case yIdctW | yIdctD | bIdct => exact countTo_ph_ne_direct (by decide) (after := none) nofun h
  case bPred =>
    split at h
    · cases h; simp
    · exact countTo_ph_ne_direct (by decide) (after := none) nofun h

/-- From any point of a run, as many core steps as there are actions left lead to where executing their micro-ops one
after another and then `END` leads, whatever `SEQ` the micro-ops start from. -/
theorem coreSteps_eq_execAll {l : List SeqAction} {s : State} (hleft : s.actionsLeft = l) (h : s.inv = true)
    (hr : s.isRunning = true) (hd : s.seq.ph ≠ .direct) (q : Sequencer) :
    ∃ t, execAll (l.flatMap SeqAction.microOps) (s.goto q) = .next t ∧ t.status.fault = false ∧
      coreSteps l.length s = .next t.endCommand := by
  induction l generalizing s with
  | nil =>
    obtain ⟨a, u, hstep⟩ := State.exists_runStep h hr hd
    cases hstep.left.symm.trans hleft
  | cons a rest ih =>
    obtain ⟨a', u, hstep⟩ := State.exists_runStep h hr hd
    obtain ⟨rfl, hrest⟩ := List.cons.inj (hleft.symm.trans hstep.left)
    have hcore := hstep.core
    rw [List.flatMap_cons, List.length_cons, coreSteps_succ hcore]
    cases htarget : s.seqTarget with
    | none =>
      rw [htarget] at hrest
      subst hrest
      exact ⟨u.goto q, execAll_append.mpr ⟨_, hstep.micro q, rfl⟩, hstep.fault, rfl⟩
    | some q' =>
      rw [htarget] at hrest hcore
      have hleft' : (u.goto q').actionsLeft = rest :=
        (State.actionsLeft_congr (u := u.goto q') (s := s.goto q') hstep.hdr hstep.cb rfl).trans hrest.symm
      obtain ⟨t, ht, htf, hsteps⟩ := ih hleft' (coreStep_inv h hcore)
        (State.isRunning_iff.mpr ⟨hstep.busy, hstep.fault⟩) (State.seqTarget_ph_ne_direct htarget)
      exact ⟨t, execAll_append.mpr ⟨_, hstep.micro q, ht⟩, htf, hsteps⟩

/-! ### How many actions are left (R123 (b), (f)) -/

@[simp] theorem State.length_chromaActions (s : State) (n : Nat) : (s.chromaActions n).length = 8 - n := by
  simp [chromaActions]

theorem length_rasterActions {f : BitVec 2 → BitVec 2 → List Instr} {k : Nat}
    (hf : ∀ col row, (f col row).length = k) (n : Nat) : (rasterActions f n).length = (16 - n) * k := by
  simp only [rasterActions, List.length_flatMap, List.length_map, hf, List.map_const', List.sum_replicate_nat,
    List.length_drop, List.length_range]

@[simp] theorem length_patchedActions (n : Nat) : (patchedActions n).length = 16 - n := by
  rw [patchedActions, length_rasterActions (k := 1) (fun _ _ => rfl), Nat.mul_one]

@[simp] theorem length_directActions (n : Nat) : (directActions n).length = 16 - n := by
  rw [directActions, length_rasterActions (k := 1) (fun _ _ => rfl), Nat.mul_one]

theorem length_blockOps (hnz : Bool) (col row : BitVec 2) : (blockOps hnz col row).length = if hnz then 2 else 1 := by
  cases hnz <;> rfl

theorem State.length_lumaActions (s : State) : s.lumaActions.length =
    match s.hdr.pb, s.hdr.hnz, s.y2Coded with
    | false, false, _ => 1
    | true, false, _ => 16
    | false, true, true => 19
    | false, true, false => 17
    | true, true, _ => 32 := by
  unfold lumaActions
  cases s.hdr.pb <;> cases s.hdr.hnz <;> cases s.y2Coded <;>
    simp [length_rasterActions (length_blockOps _)]

theorem State.length_lumaActions_le (s : State) : s.lumaActions.length ≤ 32 := by
  rw [length_lumaActions]
  split <;> decide

/-- R123 (b), (f): no place of the sequencer is followed by more than 41 steps. -/
theorem State.length_actionsLeft_le (s : State) : s.actionsLeft.length ≤ 41 := by
  have hluma := s.length_lumaActions_le
  have hblock : ∀ n, (rasterActions (blockOps s.hdr.hnz) n).length ≤ 32 := by
    intro n
    rw [length_rasterActions (length_blockOps _)]
    split <;> omega
  have hpred := hblock s.seq.n.toNat
  have hidct := hblock (s.seq.n.toNat + 1)
  have hchroma : (if s.hdr.hnz then s.chromaActions 0 else []).length ≤ 8 := by split <;> simp
  unfold actionsLeft
  cases s.seq.ph
  case idle | direct | faulted => exact Nat.zero_le _
  case yPred => exact hluma.trans (by decide)
  case bPred => exact hpred.trans (by decide)
  all_goals
    simp only [List.length_cons, List.length_append, length_chromaActions, length_patchedActions, length_directActions]
    omega

/-- Settles O56: a direct command ends in its step; a run takes the steps of the actions left. -/
theorem everyCommandEnds : Obligations.EveryCommandEnds := by
  intro s h hr
  by_cases hd : s.seq.ph = .direct
  · obtain ⟨u, hstep⟩ := coreStep_of_direct (State.phaseLegal_of_inv h) hr hd
    refine ⟨1, _, le_rfl, by decide, coreSteps_succ hstep, ?_⟩
    cases hf : u.status.fault with
    | true => simp [State.isRunning, hf, hd]
    | false => simp [State.isRunning, State.isIdle, hf]
  · obtain ⟨t, -, hf, hsteps⟩ := coreSteps_eq_execAll rfl h hr hd s.seq
    obtain ⟨a, u, hstep⟩ := State.exists_runStep h hr hd
    refine ⟨_, _, ?_, s.length_actionsLeft_le, hsteps, ?_, .inl ⟨?_, ?_⟩⟩
    · rw [hstep.left]
      exact Nat.succ_pos _
    · simp [State.isRunning]
    · simp [State.isIdle, hf]
    · rfl

/-! ### A run is the program of R108 -/

theorem State.chromaActions_microOps (s : State) :
    (s.chromaActions 0).flatMap SeqAction.microOps = s.chromaProgram := by
  rw [chromaActions, chromaProgram, List.drop_zero]
  induction List.finRange 8 with
  | nil => rfl
  | cons b l ih =>
    rw [List.map_cons, List.flatMap_cons, ih]
    cases hc : s.cb[16 + b.val].coded <;> simp [hc, SeqAction.microOps]

theorem rasterActions_microOps (f : BitVec 2 → BitVec 2 → List Instr) :
    (rasterActions f 0).flatMap SeqAction.microOps = rasterProgram f := by
  have hrun : ∀ l : List Instr, (l.map .run).flatMap SeqAction.microOps = l := fun l => by
    simp [List.flatMap_map, SeqAction.microOps]
  simp only [rasterActions, rasterProgram, List.drop_zero, List.flatMap_assoc, hrun]

theorem State.lumaActions_microOps (s : State) : s.lumaActions.flatMap SeqAction.microOps =
    if s.hdr.pb then rasterProgram (blockOps s.hdr.hnz)
    else .predy :: (if s.hdr.hnz then
      (if s.y2Coded then .copyy :: .wht :: rasterProgram fun col row => [.idctW col row]
       else rasterProgram fun col row => [.idctY col row])
    else []) := by
  unfold lumaActions patchedActions directActions
  split
  · exact rasterActions_microOps _
  · refine congrArg (Instr.predy :: ·) ?_
    split
    · split
      · exact congrArg (.copyy :: .wht :: ·) (rasterActions_microOps _)
      · exact rasterActions_microOps _
    · rfl

/-- The actions of a run's first place dispatch the program of R108. -/
theorem State.actionsLeft_microOps {s : State} (hs : s.seq = { ph := .cPred, n := 0#4 }) :
    s.actionsLeft.flatMap SeqAction.microOps = s.runProgram := by
  have hchroma : (if s.hdr.hnz then s.chromaActions 0 else []).flatMap SeqAction.microOps =
      if s.hdr.hnz then s.chromaProgram else [] := by
    split
    · exact s.chromaActions_microOps
    · rfl
  rw [actionsLeft, hs, List.flatMap_cons, List.flatMap_append, hchroma, lumaActions_microOps]
  rfl

/-- The actions of a run's first place are as many as R123 (b) says. -/
theorem State.length_actionsLeft {s : State} (hs : s.seq = { ph := .cPred, n := 0#4 }) :
    s.actionsLeft.length = s.runSteps := by
  rw [actionsLeft, hs, List.length_cons, List.length_append, length_lumaActions, runSteps]
  cases s.hdr.pb <;> cases s.hdr.hnz <;> cases s.y2Coded <;> simp

theorem length_rasterProgram {f : BitVec 2 → BitVec 2 → List Instr} {k : Nat}
    (hf : ∀ col row, (f col row).length = k) : (rasterProgram f).length = 16 * k := by
  simp only [rasterProgram, List.length_flatMap, hf, List.map_const', List.sum_replicate_nat, List.length_range]

/-- The number of micro-ops of a run (R123 (b)). -/
theorem State.length_runProgram (s : State) : s.runProgram.length = (match s.hdr.pb, s.hdr.hnz, s.y2Coded with
      | false, false, _ => 2
      | true, false, _ => 17
      | false, true, true => 20 + s.codedChroma
      | false, true, false => 18 + s.codedChroma
      | true, true, _ => 33 + s.codedChroma) := by
  have hchroma : s.chromaProgram.length = s.codedChroma := List.length_map _
  have hone : ∀ f : BitVec 2 → BitVec 2 → Instr, (rasterProgram fun col row => [f col row]).length = 16 :=
    fun f => length_rasterProgram (k := 1) fun _ _ => rfl
  have htwo : ∀ f g : BitVec 2 → BitVec 2 → Instr,
      (rasterProgram fun col row => [f col row, g col row]).length = 32 :=
    fun f g => length_rasterProgram (k := 2) fun _ _ => rfl
  unfold runProgram
  cases s.hdr.pb <;> cases s.hdr.hnz <;> cases s.y2Coded <;> simp [hone, htwo, hchroma] <;> omega

/-- A write of 0x1000 to `CMD` while idle starts the sequencer (R106). -/
theorem State.hostWrite_runmb {s s0 : State} (hi : s.isIdle = true)
    (h0 : s.hostWrite 0x000#11 0x1000#16 = .next s0) : s0 = s.clearOnAccept.start { ph := .cPred, n := 0#4 } := by
  rw [hostWrite_cmd_of_idle hi, accept_runmb] at h0
  exact (Host.Outcome.next.inj h0).symm

/-- The inputs of the run, the working copy and the raster are as they were. -/
theorem State.hostWrite_runmb_keeps {s s0 : State} (hi : s.isIdle = true)
    (h0 : s.hostWrite 0x000#11 0x1000#16 = .next s0) :
    s0.status = { s.status with busy := true, done := false, dcovf := false } ∧ s0.cb = s.cb ∧ s0.hdr = s.hdr ∧
      s0.ctx = s.ctx ∧ s0.wc = s.wc ∧ s0.px = s.px := by
  rw [hostWrite_runmb hi h0]
  simp

/-- A run from acceptance to its end, as the program's micro-ops and `END`. -/
theorem exists_run {s s0 : State} (h : s.inv = true) (hi : s.isIdle = true)
    (h0 : s.hostWrite 0x000#11 0x1000#16 = .next s0) :
    ∃ t, execAll s.runProgram s0 = .next t ∧ t.status.fault = false ∧
      coreSteps s.runSteps s0 = .next t.endCommand := by
  have hinv := State.hostWrite_inv h h0
  have hf := (State.isIdle_iff.mp hi).2
  obtain rfl := State.hostWrite_runmb hi h0
  have hrun := coreSteps_eq_execAll rfl hinv (State.isRunning_iff.mpr ⟨rfl, hf⟩) nofun { ph := .cPred, n := 0#4 }
  rwa [State.actionsLeft_microOps rfl, State.length_actionsLeft rfl] at hrun

/-- Settles O57: the run, and the lengths of the parts of its program. -/
theorem runmbRefinesTheProgram : Obligations.RunmbRefinesTheProgram := by
  intro s s0 h hi h0
  obtain ⟨t, ht, -, hsteps⟩ := exists_run h hi h0
  exact ⟨⟨t, ht, hsteps⟩, s.length_runProgram⟩

end Sys2Proof.Machine
end

section
/-! PROOFS about the results of the runs of 43_orchestrator.md: prediction alone when there is no residual (R124), and the
path through the working copy (R108, R122). -/

namespace Sys2Proof.Machine

/-! ### What a list of micro-ops keeps -/

theorem execAll_keeps_inputs {l : List Instr} {s t : State} (h : execAll l s = .next t) :
    t.cb = s.cb ∧ t.hdr = s.hdr ∧ t.ctx = s.ctx := by
  induction l generalizing s with
  | nil =>
    obtain rfl := Host.Outcome.next.inj h
    exact ⟨rfl, rfl, rfl⟩
  | cons i l ih =>
    obtain ⟨u, hu, ht⟩ := execAll_cons.mp h
    obtain ⟨hcb, hhdr, -, -, hctx, -⟩ := exec_keeps_inputs hu
    obtain ⟨hcb', hhdr', hctx'⟩ := ih ht
    exact ⟨hcb'.trans hcb, hhdr'.trans hhdr, hctx'.trans hctx⟩

theorem execAll_wf {l : List Instr} {s t : State} (h : execAll l s = .next t) (hw : s.px.wf = true) :
    t.px.wf = true := by
  induction l generalizing s with
  | nil =>
    obtain rfl := Host.Outcome.next.inj h
    exact hw
  | cons i l ih =>
    obtain ⟨u, hu, ht⟩ := execAll_cons.mp h
    exact ih ht (exec_wf hu hw)

theorem execAll_singleton {i : Instr} {s : State} : execAll [i] s = exec i s := by
  rw [execAll]
  cases exec i s <;> rfl

/-! ### Prediction alone (R124 (a)) -/

theorem le_sampleAddr_of_chroma {p : Plane} (hp : p ≠ .y) (x y : Nat) : 0x700 ≤ sampleAddr p x y := by
  cases p
  · contradiction
  all_goals
    simp only [sampleAddr, planeBase]
    omega

/-- `PREDC` and then `PREDY`: the chroma samples are kept by the second. -/
theorem execAll_predictions {s t : State} (h : execAll [.predc, .predy] s = .next t) :
    t.status = s.status ∧ t.wc = s.wc ∧ (s.px.wf = true →
      (∀ x y : Fin 16, t.memRead .y x.val y.val = (Config.predY s.hdr.ymode s.ctx)[16 * y.val + x.val]) ∧
      (∀ x y : Fin 8, t.memRead .u x.val y.val = (Config.predC s.hdr.cmode s.ctx).1[8 * y.val + x.val] ∧
        t.memRead .v x.val y.val = (Config.predC s.hdr.cmode s.ctx).2[8 * y.val + x.val])) := by
  obtain ⟨u, hu, hukeeps, -, huv⟩ := predcResult.2 s
  obtain ⟨v, hv, hvkeeps, hframe, hy⟩ := predyResult.2 u
  obtain rfl : v = t := Host.Outcome.next.inj ((execAll_cons.mpr ⟨u, hu, execAll_singleton.trans hv⟩).symm.trans h)
  have hhdr : u.hdr = s.hdr := by rw [hukeeps]
  have hctx : u.ctx = s.ctx := by rw [hukeeps]
  refine ⟨by rw [hvkeeps, hukeeps], by rw [hvkeeps, hukeeps], fun hw => ⟨fun x y => ?_, fun x y => ?_⟩⟩
  · rw [← hhdr, ← hctx]
    exact hy (exec_wf hu hw) x y
  · rw [State.memRead, State.memRead, hframe _ (.inr (le_sampleAddr_of_chroma (by decide) _ _)),
      hframe _ (.inr (le_sampleAddr_of_chroma (by decide) _ _))]
    exact huv hw x y

/-- Settles O58: the program is the two predictions. -/
theorem noResidualMeansPrediction : Obligations.NoResidualMeansPrediction := by
  intro s s0 h hi hnz hpb h0
  obtain ⟨t, ht, -, hsteps⟩ := exists_run h hi h0
  have hcount : s.runSteps = 2 := by rw [State.runSteps, hpb, hnz]
  have hprogram : s.runProgram = [.predc, .predy] := by simp [State.runProgram, hpb, hnz]
  rw [hprogram] at ht
  rw [hcount] at hsteps
  obtain ⟨hpx, hst, -⟩ := State.inv_iff.mp h
  obtain ⟨-, hf⟩ := State.isIdle_iff.mp hi
  obtain ⟨-, hcode, -⟩ := (State.statusLegal_of_no_fault hf).mp hst
  obtain ⟨hstatus, hwc, hsamples⟩ := execAll_predictions ht
  obtain ⟨hstatus0, -, hhdr0, hctx0, hwc0, hpx0⟩ := State.hostWrite_runmb_keeps hi h0
  have hend : t.endCommand.status = { busy := false, done := true, fault := false, dcovf := false, fcode := .none } := by
    simp [hstatus, hstatus0, hf, hcode]
  rw [hpx0, hhdr0, hctx0] at hsamples
  refine ⟨t.endCommand, hsteps, ?_, hwc.trans hwc0, hsamples hpx⟩
  rw [hend]
  decide

/-! ### The path through the working copy (R108, R122) -/

/-- Sample `(k, i)` of luma sub-block `b` (R28). -/
def State.blockSample (s : State) (b : Fin 16) (i k : Fin 4) : Byte :=
  s.memRead .y (4 * (b.val % 4) + k.val) (4 * (b.val / 4) + i.val)

/-- The index of that sample in the predictor's answer for the whole plane (R97). -/
def lumaIndex (b : Fin 16) (i k : Fin 4) : Fin 256 :=
  ⟨16 * (4 * (b.val / 4) + i.val) + (4 * (b.val % 4) + k.val), by omega⟩

/-- The `IDCT.W` of luma block `b` (R116). -/
def idctWOf (b : Fin 16) : Instr := .idctW (BitVec.ofNat 2 (b.val % 4)) (BitVec.ofNat 2 (b.val / 4))

theorem rasterProgram_idctW : (rasterProgram fun col row => [.idctW col row]) = (List.finRange 16).map idctWOf := by
  rw [rasterProgram, ← List.map_coe_finRange_eq_range, List.flatMap_map]
  exact List.map_eq_flatMap.symm

theorem toNat_col (b : Fin 16) : (BitVec.ofNat 2 (b.val % 4)).toNat = b.val % 4 := Nat.mod_eq_of_lt (by omega)

theorem toNat_row (b : Fin 16) : (BitVec.ofNat 2 (b.val / 4)).toNat = b.val / 4 := Nat.mod_eq_of_lt (by omega)

/-- Two sub-blocks share no sample (R28). -/
theorem blockSample_not_inBlock {b b' : Fin 16} (hne : b' ≠ b) (i k : Fin 4) :
    ¬ inBlock .y (b.val % 4) (b.val / 4) (sampleAddr .y (4 * (b'.val % 4) + k.val) (4 * (b'.val / 4) + i.val)) := by
  rintro ⟨j, e⟩
  simp only [blockAddr, sampleAddr, planeBase, planeWidth] at e
  exact hne (Fin.ext (by omega))

/-- One `IDCT.W` of a final block adds that block's residual to its own sub-block. -/
theorem exec_idctWOf {b : Fin 16} {s t : State} (htag : s.wc[b].tag = .yWithoutY2) (h : exec (idctWOf b) s = .next t) :
    t.wc = s.wc ∧ (∀ b' ≠ b, ∀ i k, t.blockSample b' i k = s.blockSample b' i k) ∧
      (s.px.wf = true → ∀ i k, ((t.blockSample b i k).toNat : Int) =
        clamp255 ((s.blockSample b i k).toNat + idctResidual s.wc[b].coef i k)) := by
  have hb : b.val = 4 * (BitVec.ofNat 2 (b.val / 4)).toNat + (BitVec.ofNat 2 (b.val % 4)).toNat := by
    rw [toNat_col, toNat_row]
    omega
  obtain ⟨u, hu, hadds⟩ := exec_idctW_addsResidual hb htag
  obtain rfl : u = t := Host.Outcome.next.inj (hu.symm.trans h)
  rw [toNat_col, toNat_row] at hadds
  refine ⟨by rw [hadds.keeps], fun b' hne i k => ?_, hadds.result⟩
  exact hadds.frame _ (blockSample_not_inBlock hne i k)

/-- The `IDCT.W`s of distinct final blocks add each block's residual to its own sub-block, once. -/
theorem execAll_idctWOf {l : List (Fin 16)} (hl : l.Nodup) {s t : State} (hw : s.px.wf = true)
    (htag : ∀ k : Fin 16, s.wc[k].tag = .yWithoutY2) (h : execAll (l.map idctWOf) s = .next t) :
    t.wc = s.wc ∧ (∀ b ∉ l, ∀ i k, t.blockSample b i k = s.blockSample b i k) ∧
      (∀ b ∈ l, ∀ i k, ((t.blockSample b i k).toNat : Int) =
        clamp255 ((s.blockSample b i k).toNat + idctResidual s.wc[b].coef i k)) := by
  induction l generalizing s with
  | nil =>
    obtain rfl := Host.Outcome.next.inj h
    exact ⟨rfl, fun _ _ _ _ => rfl, nofun⟩
  | cons b l ih =>
    obtain ⟨hb, hl'⟩ := List.nodup_cons.mp hl
    obtain ⟨u, hu, ht⟩ := execAll_cons.mp h
    obtain ⟨hwc, hother, hown⟩ := exec_idctWOf (htag b) hu
    obtain ⟨hwc', hkeep, hadd⟩ := ih hl' (exec_wf hu hw) (by rwa [hwc]) ht
    refine ⟨hwc'.trans hwc, fun b' hb' i k => ?_, fun b' hb' i k => ?_⟩
    · obtain ⟨hne, hmem⟩ := not_or.mp (mt List.mem_cons.mpr hb')
      rw [hkeep b' hmem, hother b' hne]
    · rcases List.mem_cons.mp hb' with rfl | hmem
      · rw [hkeep b' hb, hown hw]
      · have hne : b' ≠ b := fun e => hb (e ▸ hmem)
        rw [hadd b' hmem, hother b' hne, hwc]

/-- Luma block `b` of `CB` with its DC replaced by the `WHT` output `b`, over the integers (R80, R82). -/
def State.patchedBlock (s : State) (b : Fin 16) : Coefs :=
  s.cb[b.val].coef.set 0 (BitVec.ofInt 16 ((whtSum s.cb[24].coef b + 3) / 8))

theorem State.patchedBlock_congr {s t : State} (hcb : t.cb = s.cb) : t.patchedBlock = s.patchedBlock := by
  unfold patchedBlock
  rw [hcb]

/-- `COPYY` and then `WHT` on the path through the working copy: each block is the original with its DC replaced (R75 to
R80). -/
theorem execAll_copyy_wht {s t : State} (hpath : s.y2Path = true) (h : execAll [.copyy, .wht] s = .next t) :
    t.px = s.px ∧ ∀ b : Fin 16, t.wc[b].tag = .yWithoutY2 ∧ t.wc[b].coef = s.patchedBlock b := by
  obtain ⟨u, hu, ht⟩ := execAll_cons.mp h
  rw [execAll_singleton] at ht
  have hcopy := copyNotPending_of_copyy hpath hu
  obtain ⟨u', hu', hukeeps, hcoef, -⟩ := copyyResult.2 s
  obtain rfl : u' = u := Host.Outcome.next.inj (hu'.symm.trans hu)
  have hcb : u'.cb = s.cb := by rw [hukeeps]
  have hhdr : u'.hdr = s.hdr := by rw [hukeeps]
  have hpx : u'.px = s.px := by rw [hukeeps]
  simp only [State.y2Path, Bool.and_eq_true, Bool.not_eq_true'] at hpath
  obtain ⟨⟨hpb, -⟩, hy2⟩ := hpath
  have hwht := exec_wht_of_pending (s := u') (by rw [hhdr, hpb]) (by rw [State.y2Coded, hcb]; exact hy2) hcopy
  obtain rfl : u'.whtApply = t := Host.Outcome.next.inj (hwht.symm.trans ht)
  refine ⟨(State.whtApply_px u').trans hpx, fun b => ?_⟩
  rw [State.whtApply_wc_getElem, WorkBlock.patch, (hcoef b).1, hcb]
  exact ⟨rfl, rfl⟩

/-- What the path through the working copy leaves, whatever ran before its luma prediction: the patched blocks, and in
each luma sub-block the prediction with its patched block's residual added. -/
theorem execAll_y2Path {l : List Instr} {s t : State} (hpx : s.px.wf = true) (hpath : s.y2Path = true)
    (h : execAll (l ++ .predy :: ([.copyy, .wht] ++ (List.finRange 16).map idctWOf)) s = .next t) (b : Fin 16) :
    t.wc[b].coef = s.patchedBlock b ∧ ∀ i k : Fin 4, ((t.blockSample b i k).toNat : Int) =
      clamp255 ((Config.predY s.hdr.ymode s.ctx)[lumaIndex b i k].toNat + idctResidual (s.patchedBlock b) i k) := by
  obtain ⟨u, hu, h⟩ := execAll_append.mp h
  obtain ⟨v, hv, h⟩ := execAll_cons.mp h
  obtain ⟨w, hw, ht⟩ := execAll_append.mp h
  obtain ⟨hcb, hhdr, hctx⟩ := execAll_keeps_inputs hu
  have hwu : u.px.wf = true := execAll_wf hu hpx
  obtain ⟨v', hv', -, -, hpred⟩ := predyResult.2 u
  obtain rfl : v' = v := Host.Outcome.next.inj (hv'.symm.trans hv)
  obtain ⟨hvcb, hvhdr, -⟩ := exec_keeps_inputs hv
  have hpath' : v'.y2Path = true := by
    rw [← hpath, State.y2Path, State.y2Path, State.y2Coded, State.y2Coded, hvcb, hvhdr, hcb, hhdr]
  obtain ⟨hwpx, hblocks⟩ := execAll_copyy_wht hpath' hw
  rw [State.patchedBlock_congr (hvcb.trans hcb)] at hblocks
  obtain ⟨hwc, -, hadd⟩ :=
    execAll_idctWOf (List.nodup_finRange 16) (hwpx ▸ exec_wf hv hwu) (fun k => (hblocks k).1) ht
  refine ⟨by rw [hwc, (hblocks b).2], fun i k => ?_⟩
  have hsample := hpred hwu ⟨4 * (b.val % 4) + k.val, by omega⟩ ⟨4 * (b.val / 4) + i.val, by omega⟩
  rw [hhdr, hctx] at hsample
  rw [hadd b (List.mem_finRange b), (hblocks b).2, State.blockSample, State.memRead, hwpx]
  exact congrArg (fun p : Byte => clamp255 (p.toNat + idctResidual (s.patchedBlock b) i k)) hsample

/-- Settles O59: the run's program is on the path through the working copy, and acceptance leaves its inputs alone. -/
theorem y2PathReconstruction : Obligations.Y2PathReconstruction := by
  intro s s0 h hi hnz hpb hy2 h0
  obtain ⟨t, ht, hf, hsteps⟩ := exists_run h hi h0
  have hcount : s.runSteps = 28 := by rw [State.runSteps, hpb, hnz, State.y2Coded, hy2]
  have hprogram : s.runProgram =
      (.predc :: s.chromaProgram) ++ (.predy :: ([.copyy, .wht] ++ (List.finRange 16).map idctWOf)) := by
    simp [State.runProgram, State.y2Coded, hpb, hnz, hy2, rasterProgram_idctW]
  rw [hprogram] at ht
  rw [hcount] at hsteps
  obtain ⟨-, hcb, hhdr, hctx, -, -⟩ := State.hostWrite_runmb_keeps hi h0
  have hpx : s0.px.wf = true := (State.inv_iff.mp (State.hostWrite_inv h h0)).1
  have hpath : s0.y2Path = true := by simp [State.y2Path, State.y2Coded, hcb, hhdr, hpb, hnz, hy2]
  have hcbt : t.cb = s.cb := (execAll_keeps_inputs ht).1.trans hcb
  refine ⟨t.endCommand, hsteps, State.isIdle_iff.mpr ⟨rfl, hf⟩, rfl, hcbt, fun b => ?_⟩
  have hblock := execAll_y2Path hpx hpath ht b
  rw [State.patchedBlock_congr hcb, hhdr, hctx] at hblock
  exact hblock

end Sys2Proof.Machine
end

section
/-! PROOFS about faults (60_exceptions.md): the fault state is frozen (R136, R137), and the ways into it change no data
(R127, R132 to R134). -/

namespace Sys2Proof.Machine

/-! ### In the fault state (R136, R137) -/

theorem coreStep_of_fault {s : State} (hf : s.status.fault = true) : coreStep s = .next s :=
  coreStep_of_not_running (by simp [State.isRunning, hf])

theorem State.hostWrite_of_fault {s : State} (hf : s.status.fault = true) (a : HAddr) (v : Word) :
    s.hostWrite a v = .next s :=
  if_pos hf

theorem State.busy_eq_false_of_fault {s : State} (h : s.statusLegal = true) (hf : s.status.fault = true) :
    s.status.busy = false := by
  cases hb : s.status.busy
  · rfl
  · simp [State.statusLegal, hf, hb] at h

/-- Settles O49: the core is not running, and not busy either. -/
theorem faultStateIsFrozen : Obligations.FaultStateIsFrozen := by
  intro s h hf
  obtain ⟨-, hst, -⟩ := State.inv_iff.mp h
  exact ⟨coreStep_of_fault hf, State.hostWrite_of_fault hf,
    State.hostReadValue_of_not_busy (State.busy_eq_false_of_fault hst hf)⟩

/-- Settles O50: by the event that is next. Steps and writes do nothing, reads and the context touch no fault state. -/
theorem onlyResetLeavesTheFaultState : Obligations.OnlyResetLeavesTheFaultState := by
  intro s t hf ht
  rcases step_cases s with ⟨-, e⟩ | ⟨rest, -, e⟩ | ⟨a, rest, -, e⟩ | ⟨a, v, rest, -, e⟩ | ⟨p, rest, hev, -⟩ |
    ⟨c, rest, -, e⟩
  · obtain rfl := Host.Outcome.next.inj ((e.trans (coreStep_of_fault hf)).symm.trans ht)
    simp
  · have hstep := e.trans (coreStep_of_fault (s := { s with events := rest }) hf)
    obtain rfl := Host.Outcome.next.inj (hstep.symm.trans ht)
    simp
  · obtain rfl := Host.Outcome.next.inj (e.symm.trans ht)
    simp
  · have hstep := e.trans (State.hostWrite_of_fault (s := { s with events := rest }) hf a v)
    obtain rfl := Host.Outcome.next.inj (hstep.symm.trans ht)
    simp
  · exact .inl ⟨p, congrArg List.head? hev⟩
  · obtain rfl := Host.Outcome.next.inj (e.symm.trans ht)
    simp

/-! ### Into the fault state (R127, R132 to R134) -/

/-- Settles O40: the fault entry of a busy write leaves a core that is not running. -/
theorem hostWriteWhileBusyFaults : Obligations.HostWriteWhileBusyFaults := by
  intro s a v hb hf
  have hwrite := State.hostWrite_of_busy (a := a) (v := v) hf hb
  refine ⟨hwrite, fun t ht => ?_, s.hostRead_status a, s.hostRead_finfo a⟩
  obtain rfl := Host.Outcome.next.inj (hwrite.symm.trans ht)
  exact coreStep_of_fault rfl

theorem Status.word_illegalCmd :
    ({ busy := false, done := false, fault := true, dcovf := false, fcode := .illegalCmd } : Status).word =
      0x0014#16 := by
  decide

theorem Sequencer.word_faulted : ({ ph := .faulted, n := 0#4 } : Sequencer).word = 0x00F0#16 := by decide

/-- Settles O32: the fault entry of acceptance, at the place `(IDLE, 0)` where a legal idle sequencer stands. -/
theorem illegalCommandFaults : Obligations.IllegalCommandFaults := by
  intro s w h hi hw
  obtain ⟨-, -, -, -, -, -, hillegal⟩ := illegalWordsAreRejected
  have hseq := State.seq_eq_idle (State.phaseLegal_of_inv h) hi
  refine ⟨_, hillegal s w hi hw, Status.word_illegalCmd, rfl, ?_, rfl, rfl, rfl, rfl, rfl, rfl⟩
  rw [hseq]
  exact Sequencer.word_faulted

/-- `t` is the fault entry with a cause (R133) from `s`, of which acceptance may have cleared flags of `STATUS` (R106);
`DONE` was 0 by then. -/
def State.FaultEntry (s t : State) : Prop :=
  ∃ (st : Status) (c : FaultCode) (w : Word), st.done = false ∧ c ≠ .none ∧
    t = ({ s with status := st } : State).raiseFault c w

/-- A core step that faults is the fault entry of its micro-op, and nothing of the micro-op (R134). -/
theorem coreStep_faultEntry {s t : State} (h : s.inv = true) (hf : s.status.fault = false) (ht : coreStep s = .next t)
    (htf : t.status.fault = true) : s.FaultEntry t := by
  obtain ⟨-, hst, -⟩ := State.inv_iff.mp h
  rcases coreStep_next ht with ⟨-, rfl⟩ | ⟨-, -, rfl⟩ | ⟨hr, i, u, ha, hu, rfl⟩
  · cases hf.symm.trans htf
  · cases hf.symm.trans ((s.advance_fault _).symm.trans htf)
  · have huf : u.status.fault = true := by
      split at htf
      · assumption
      · exact (u.advance_fault _).symm.trans htf
    rw [if_pos huf]
    rcases exec_next_cases (State.ne_runmb_of_seqAction ha) hu with ⟨c, w, hc, rfl⟩ | ⟨e, -⟩
    · exact ⟨s.status, c, w, State.done_eq_false_of_busy hst (State.isRunning_iff.mp hr).1, hc, rfl⟩
    · rw [e] at huf
      cases hf.symm.trans huf

/-- A host write that faults is the fault entry of a busy write (R132) or of an illegal command (R127). -/
theorem State.hostWrite_faultEntry {s t : State} {a : HAddr} {v : Word} (h : s.inv = true) (hf : s.status.fault = false)
    (ht : s.hostWrite a v = .next t) (htf : t.status.fault = true) : s.FaultEntry t := by
  obtain ⟨-, hst, -⟩ := State.inv_iff.mp h
  rcases s.hostWrite_cases a v with ⟨hfault, -⟩ | ⟨-, hb, e⟩ | ⟨-, -, e⟩ | ⟨-, -, e⟩
  · cases hf.symm.trans hfault
  · obtain rfl := Host.Outcome.next.inj (e.symm.trans ht)
    exact ⟨s.status, _, _, State.done_eq_false_of_busy hst hb, by decide, rfl⟩
  · rcases s.accept_cases v with ⟨-, e'⟩ | ⟨-, e'⟩ | ⟨-, e'⟩ <;>
      obtain rfl := Host.Outcome.next.inj ((e.trans e').symm.trans ht)
    · exact ⟨s.clearOnAccept.status, _, _, rfl, by decide, rfl⟩
    · cases hf.symm.trans htf
    · cases hf.symm.trans htf
  · obtain rfl := Host.Outcome.next.inj (e.symm.trans ht)
    rw [State.writeReg_status] at htf
    cases hf.symm.trans htf

/-- The only ways into the fault state are a core step and a host write, by the event that is next (R134). -/
theorem step_faultEntry {s t : State} (h : s.inv = true) (hf : s.status.fault = false) (ht : step s = .next t)
    (htf : t.status.fault = true) : ({ s with events := s.events.tail } : State).FaultEntry t := by
  rcases step_cases s with ⟨hev, -⟩ | ⟨rest, hev, e⟩ | ⟨a, rest, -, e⟩ | ⟨a, v, rest, hev, e⟩ | ⟨p, rest, -, e⟩ |
    ⟨c, rest, -, e⟩
  · rw [hev]
    exact coreStep_faultEntry h hf ((step_of_no_event hev).symm.trans ht) htf
  · rw [hev]
    exact coreStep_faultEntry (s := { s with events := rest }) h hf (e.symm.trans ht) htf
  · obtain rfl := Host.Outcome.next.inj (e.symm.trans ht)
    cases hf.symm.trans htf
  · rw [hev]
    exact State.hostWrite_faultEntry (s := { s with events := rest }) h hf (e.symm.trans ht) htf
  · obtain rfl := Host.Outcome.next.inj (e.symm.trans ht)
    cases htf
  · obtain rfl := Host.Outcome.next.inj (e.symm.trans ht)
    cases hf.symm.trans htf

/-- Settles O48: the step is a fault entry, which changes `STATUS`, `FINFO` and `SEQ` only. -/
theorem faultEntryIsPrecise : Obligations.FaultEntryIsPrecise := by
  intro s t h hf ht htf
  obtain ⟨st, c, w, hdone, hc, rfl⟩ := step_faultEntry h hf ht htf
  exact ⟨rfl, hdone, hc, rfl, rfl⟩

end Sys2Proof.Machine
end

section
/-! PROOFS about the terms that no word encodes (30_encoding.md R66 (e)): a chroma `IDCT` off its 2 × 2 grid selects no
block, and its meaning refuses it. -/

namespace Sys2Proof.Machine

theorem not_lt_two_of_not_inChromaGrid {col row : BitVec 2} (h : inChromaGrid col row = false) :
    ¬ (col.toNat < 2 ∧ row.toNat < 2) :=
  fun hlt => Bool.false_ne_true (h.symm.trans (inChromaGrid_iff.mpr hlt))

theorem uBlock_eq_none {col row : BitVec 2} (h : inChromaGrid col row = false) : uBlock col row = none :=
  dif_neg (not_lt_two_of_not_inChromaGrid h)

theorem vBlock_eq_none {col row : BitVec 2} (h : inChromaGrid col row = false) : vBlock col row = none :=
  dif_neg (not_lt_two_of_not_inChromaGrid h)

/-- Settles O24: off the grid neither chroma form selects a block, so each takes its refusing branch. -/
theorem chromaTermOffTheGridIsRefused : Obligations.ChromaTermOffTheGridIsRefused := by
  refine fun s col row h => ⟨?_, ?_⟩
  · simp only [exec, execIdctU, uBlock_eq_none h]
  · simp only [exec, execIdctV, vBlock_eq_none h]

end Sys2Proof.Machine
end
